-- ==== Sys2Proof/Word.lean ====
section
/-! DEFINITION. The word types of the Magellan bridge core, and the six axes. -/

namespace Sys2Proof

/-- A byte: 8 bits (R13). -/
abbrev Byte := BitVec 8

/-- `nib`: a 4-bit unsigned value (R13). -/
abbrev Nib := BitVec 4

/-- `int16`: a signed two's complement 16-bit value (R13). -/
abbrev I16 := BitVec 16

/-- A time: `TIME_WIDTH` = 32 bits of milliseconds (R11, R17, decision D2). -/
abbrev Time := BitVec 32

/-- `Norm`: a normalized axis value, the bits of an IEEE 754 binary32 number (R214). -/
abbrev Norm := BitVec 32

/-- A button mask. It has room for the widest admitted `BUTTON_COUNT`, 16; bits at
`BUTTON_COUNT` and above are 0 in every reachable state (R29). -/
abbrev Mask := BitVec 16

/-- The six axes (R19): x, y, z are translation, u, v, w rotation. -/
inductive Axis where
  | x | y | z | u | v | w
  deriving DecidableEq, Repr

/-- One value for each axis. -/
structure Axes (α : Type) where
  x : α
  y : α
  z : α
  u : α
  v : α
  w : α
  deriving DecidableEq, Repr

/-- The value of one axis. -/
def Axes.get {α : Type} (t : Axes α) : Axis → α
  | .x => t.x
  | .y => t.y
  | .z => t.z
  | .u => t.u
  | .v => t.v
  | .w => t.w

/-- The six values of a function of the axis. -/
def Axes.ofFn {α : Type} (f : Axis → α) : Axes α :=
  ⟨f .x, f .y, f .z, f .u, f .v, f .w⟩

/-- The same value on every axis. -/
def Axes.all {α : Type} (a : α) : Axes α := ⟨a, a, a, a, a, a⟩

end Sys2Proof
end

