-- ==== Sys2Proof/Config.lean ====
section
/-! DEFINITION. The configuration of the block (R11), its fixed constants, and the free
values (93_implementation_defined.md U5, U6, U14) that no rule determines. -/

namespace Sys2Proof

/-- The calibration pair `(min_a, max_a)` of one axis, signed 16-bit each (R39). -/
structure Calibration where
  min : I16
  max : I16
  deriving DecidableEq, Repr

/-- The parameters of R11 that have no fixed value: `RX_CAPACITY`, `VERSION_MAGIC`, `CAL` and
`TX_CHAR_DELAY_MS` are OPEN; `NIBBLE_ALPHABET` and `BUTTON_COUNT` have defaults and stay
arguments. `NUMERICS` and `TIME_WIDTH` are taken at their defaults (log entries 4 and 5). -/
structure Config where
  /-- `RX_CAPACITY`: bytes of the receive buffer, the reserved slot included. -/
  rxCapacity : Nat
  /-- `VERSION_MAGIC`: what a version payload must contain. -/
  versionMagic : List Byte
  /-- `NIBBLE_ALPHABET`: the sixteen symbols, index = value. -/
  nibbleAlphabet : List Byte
  /-- `BUTTON_COUNT`: width of the button mask in bits. -/
  buttonCount : Nat
  /-- `CAL`: the calibration table. -/
  cal : Axes Calibration
  /-- `TX_CHAR_DELAY_MS`: no rule depends on it (R174). -/
  txCharDelayMs : Nat
  deriving DecidableEq, Repr

/-- `TERMINATOR`, carriage return (R11). -/
abbrev terminator : Byte := 0x0D#8
/-- `STUCK_TIMEOUT_MS` (R11). -/
abbrev stuckTimeoutMs : Nat := 5000
/-- `RESET_SETTLE_MS` (R11). -/
abbrev resetSettleMs : Nat := 500
/-- `BUTTON_ACK_MS` (R11). -/
abbrev buttonAckMs : Nat := 500
/-- `EXPECTED_MODE` (R11). -/
abbrev expectedMode : Nib := 3#4
/-- `MIN_REPORT_INTERVAL_MS` (R11). -/
abbrev minReportIntervalMs : Nat := 8
/-- `PHYS_RANGE` (R11). -/
abbrev physRange : Nat := 800
/-- `REPORT_ID_TRANSLATION` (R11). -/
abbrev reportIdTranslation : Byte := 1#8
/-- `REPORT_ID_ROTATION` (R11). -/
abbrev reportIdRotation : Byte := 2#8
/-- `REPORT_ID_BUTTONS` (R11). -/
abbrev reportIdButtons : Byte := 3#8
/-- `REPORT_ID_LED` (R11). -/
abbrev reportIdLed : Byte := 4#8

/-- The default `NIBBLE_ALPHABET` (R93): the string `0AB3D56GH9:K<MN?`. Entries 0, 1, 2, 3 and 15
are the source's, entries 4 to 14 are the spec's general knowledge (its G1). -/
def defaultAlphabet : List Byte :=
  [0x30#8, 0x41#8, 0x42#8, 0x33#8, 0x44#8, 0x35#8, 0x36#8, 0x47#8,
   0x48#8, 0x39#8, 0x3A#8, 0x4B#8, 0x3C#8, 0x4D#8, 0x4E#8, 0x3F#8]

/-- The instance of the parameters that 95_test_vectors.md uses: capacity 32, magic "MAGELLAN",
the default alphabet, 12 buttons, calibration (-2000, 3000) on every axis. DESIGN CHOICE (log
entry 2): it is the configuration `State.reset` holds; the rules leave it open. -/
def Config.vectors : Config where
  rxCapacity := 32
  versionMagic := [0x4D#8, 0x41#8, 0x47#8, 0x45#8, 0x4C#8, 0x4C#8, 0x41#8, 0x4E#8]
  nibbleAlphabet := defaultAlphabet
  buttonCount := 12
  cal := Axes.all ⟨BitVec.ofInt 16 (-2000), BitVec.ofInt 16 3000⟩
  txCharDelayMs := 0

/-- Free value (U5): the bit that an LED report with a second byte other than 0 and 1 leaves in
`led`. Applied to the state's draw counter; nothing constrains it (log entry 6). -/
opaque Config.freeBit : Nat → Bool

/-- Free value (U14): what an index of `rx_buf` holds until something is written there. Nothing
constrains it (log entry 8). -/
opaque Config.freeByte : Nat → Byte

/-- Free value (U6): the number a report carries for an axis whose physical value lies outside
`int16`. Applied to the state's draw counter; nothing constrains it (log entry 7). -/
opaque Config.freeInt16 : Nat → I16

end Sys2Proof
end

