-- ==== Sys2Proof/Syntax.lean ====
section
/-! DEFINITION. The instructions: one constructor per row of spec/opcode_table.json. A row's
meaning is the rule its `rule` field cites (log entry 1). -/

namespace Sys2Proof

/-- The seven message types (R27). -/
inductive MessageType where
  | version | keypress | positionRotation | modeChange | zero | sensitivityChange | unknown
  deriving DecidableEq, Repr

/-- A Message `(type, payload, length)` with `length = len(payload)` (R18). -/
structure Message where
  type : MessageType
  payload : List Byte
  deriving DecidableEq, Repr

/-- The third component of a Message (R18). -/
def Message.length (m : Message) : Nat := m.payload.length

/-- An LED report (R105) and the time of the tick it is offered to: the identifier is fixed, `value`
is the second byte. -/
structure LedReport where
  now : Time
  value : Byte
  deriving DecidableEq, Repr

/-- One constructor per row of spec/opcode_table.json. -/
inductive Instr where
  /-- `VERSION`, an inbound frame with tag `'v'` (R99, R191). -/
  | version (payload : List Byte)
  /-- `KEYPRESS`, an inbound frame with tag `'k'` (R95, R195). -/
  | keypress (payload : List Byte)
  /-- `POSROT`, an inbound frame with tag `'d'` (R96, R196). -/
  | posrot (payload : List Byte)
  /-- `MODE`, an inbound frame with tag `'m'` (R97, R192). -/
  | mode (payload : List Byte)
  /-- `ZERO`, an inbound frame with tag `'z'` (R100, R194). -/
  | zero (payload : List Byte)
  /-- `SENS`, an inbound frame with tag `'q'` (R98, R193). -/
  | sens (payload : List Byte)
  /-- `UNKNOWN`, an inbound frame with any other tag (R106, R197): the tag, and the bytes of the frame
  before its terminator, which begin with that tag. -/
  | unknown (tag : Byte) (bytes : List Byte)
  /-- `NIBBLE`, one payload character (R93, R130). -/
  | nibble (c : Byte)
  /-- `CMD_RESET`, transmitted by the step `Reset` of `INIT_TICK(now)` (R101, R162). -/
  | cmdReset (now : Time)
  /-- `CMD_GET_VERSION`, transmitted by the step `RequestVersion` (R101, R163). -/
  | cmdGetVersion (now : Time)
  /-- `CMD_BUTTON_REPORTING`, transmitted by the step `RequestButtonReporting` (R101, R165). -/
  | cmdButtonReporting (now : Time)
  /-- `CMD_SET_MODE`, transmitted by the step `RequestSetMode` (R101, R166). -/
  | cmdSetMode (now : Time)
  /-- `CMD_ZERO`, transmitted by the step `RequestZero` (R101, R168). -/
  | cmdZero (now : Time)
  /-- `CMD_BEEP`, transmitted by `BEEP` (R101, R261). -/
  | cmdBeep
  /-- `REPORT_TRANSLATION`, report 1, sent by the step `SendTranslation(now)` (R102, R233). -/
  | reportTranslation (now : Time)
  /-- `REPORT_ROTATION`, report 2, sent by the step `SendRotation(now)` (R103, R234). -/
  | reportRotation (now : Time)
  /-- `REPORT_BUTTONS`, report 3, sent by the step `SendButtons(now)` (R104, R235). -/
  | reportButtons (now : Time)
  /-- `REPORT_LED`, report 4, taken by the LED drain of a tick (R105, R238). -/
  | reportLed (report : LedReport)
  /-- `RX_BYTE(b)` (R145). -/
  | rxByte (b : Byte)
  /-- `INIT_TICK(now)` (R172). -/
  | initTick (now : Time)
  /-- `HID_TICK(now; inbound)` (R231). -/
  | hidTick (now : Time) (inbound : Option (List Byte))
  /-- `SOFT_RESET()` (R260). -/
  | softReset
  /-- `BEEP()` (R261). -/
  | beep
  deriving DecidableEq, Repr

end Sys2Proof
end

