-- ==== Sys2Proof/WellFormed.lean ====
section
/-! DEFINITION. Which configurations (R11, R12) and which instructions are well-formed. -/

namespace Sys2Proof

/-- `min_a < 0 < max_a` (R11). -/
def Calibration.wellFormed (c : Calibration) : Bool :=
  decide (c.min.toInt < 0) && decide (0 < c.max.toInt)

/-- Every axis of the calibration table is well-formed (R11). -/
def calWellFormed (t : Axes Calibration) : Bool :=
  t.x.wellFormed && t.y.wellFormed && t.z.wellFormed &&
  t.u.wellFormed && t.v.wellFormed && t.w.wellFormed

/-- The constraint on `VERSION_MAGIC` (R11): non-empty, no 0x0D, at most `RX_CAPACITY - 1` bytes. -/
def magicWellFormed (capacity : Nat) (magic : List Byte) : Bool :=
  !magic.isEmpty && !magic.contains terminator && decide (magic.length ≤ capacity - 1)

/-- The constraint on `NIBBLE_ALPHABET` (R11): sixteen distinct bytes, the entries 0, 1, 2, 3 and
15 those of the source. -/
def alphabetWellFormed (a : List Byte) : Bool :=
  decide (a.length = 16) && decide a.Nodup &&
  decide (a.take 4 = [0x30#8, 0x41#8, 0x42#8, 0x33#8]) && decide (a.drop 15 = [0x3F#8])

/-- A configuration is well-formed when every constraint of R11 holds (R12). -/
def Config.wellFormed (c : Config) : Bool :=
  decide (25 ≤ c.rxCapacity) &&
  magicWellFormed c.rxCapacity c.versionMagic &&
  alphabetWellFormed c.nibbleAlphabet &&
  decide (9 ≤ c.buttonCount ∧ c.buttonCount ≤ 16) &&
  calWellFormed c.cal

/-- A payload holds no terminator: the byte 0x0D cannot appear inside a payload (R90). -/
def payloadWellFormed (p : List Byte) : Bool := !p.contains terminator

/-- The six tag bytes of R91; every other byte is an `Unknown` tag (R106). -/
def knownTags : List Byte := [0x76#8, 0x6B#8, 0x64#8, 0x6D#8, 0x7A#8, 0x71#8]

/-- An instruction is well-formed when it is one that its encoding can carry. A payload of any
length is: a wrong length (R108) and an overlong frame (R109) are frames the block receives. -/
def Instr.wellFormed : Instr → Bool
  | .version p => payloadWellFormed p
  | .keypress p => payloadWellFormed p
  | .posrot p => payloadWellFormed p
  | .mode p => payloadWellFormed p
  | .zero p => payloadWellFormed p
  | .sens p => payloadWellFormed p
  | .unknown tag bytes =>
    !knownTags.contains tag && decide (bytes.head? = some tag) && payloadWellFormed bytes.tail
  | .nibble _ => true
  | .cmdReset _ => true
  | .cmdGetVersion _ => true
  | .cmdButtonReporting _ => true
  | .cmdSetMode _ => true
  | .cmdZero _ => true
  | .cmdBeep => true
  | .reportTranslation _ => true
  | .reportRotation _ => true
  | .reportButtons _ => true
  | .reportLed _ => true
  | .rxByte _ => true
  | .initTick _ => true
  | .hidTick _ _ => true
  | .softReset => true
  | .beep => true

end Sys2Proof
end

