-- ==== Sys2Proof/Decode.lean ====
section
/-! DEFINITION. What is presented to the block (`Request`), the decoder from it to an
instruction, total and rejecting by name, and the encoder back (30_encoding.md). -/

namespace Sys2Proof

/-- What the environment presents to the block, undecoded. The first five carry the bytes of an
encoding of 30_encoding.md, one constructor for each place such bytes travel; the last five are
the poller's operations, which "have no encoded form" (opcode table, R7). Log entry 1. -/
inductive Request where
  /-- Bytes on the UART receive side (R90). -/
  | frame (bytes : List Byte)
  /-- One payload character (R93). -/
  | character (c : Byte)
  /-- The UART transmit side at time `now`: one outbound command (R101). -/
  | command (now : Time) (bytes : List Byte)
  /-- The USB report stream at time `now`: the report with this identifier (R69, R102 to R104).
  The data are the block's output, computed from `submit`, so they are no part of the request. -/
  | sendReport (now : Time) (id : Byte)
  /-- One report from the host (R105), offered to the tick of the scheduler at time `now`. -/
  | hostReport (now : Time) (bytes : List Byte)
  /-- `RX_BYTE(b)`. -/
  | rxByte (b : Byte)
  /-- `INIT_TICK(now)`. -/
  | initTick (now : Time)
  /-- `HID_TICK(now; inbound)`. -/
  | hidTick (now : Time) (inbound : Option (List Byte))
  /-- `SOFT_RESET()`. -/
  | softReset
  /-- `BEEP()`. -/
  | beep
  deriving DecidableEq, Repr

/-- Why bytes are no instruction. -/
inductive DecodeError where
  /-- A frame without a tag byte (R90). -/
  | noTag
  /-- A frame without a terminator (R90). -/
  | unterminatedFrame
  /-- Bytes after the terminator of a frame (R90). -/
  | bytesAfterTerminator
  /-- Not one of the six commands (R101). -/
  | notACommand
  /-- No report from the block to the host has this identifier (R69). -/
  | noSuchReport (id : Byte)
  /-- A host report that is not an LED report (R105, R111). -/
  | notAnLedReport
  deriving DecidableEq, Repr

/-- `classify(b)` (R141, the table of R91). -/
def classify (b : Byte) : MessageType :=
  if b = 0x76#8 then .version
  else if b = 0x6B#8 then .keypress
  else if b = 0x64#8 then .positionRotation
  else if b = 0x6D#8 then .modeChange
  else if b = 0x7A#8 then .zero
  else if b = 0x71#8 then .sensitivityChange
  else .unknown

/-- The payload length the interpreter accepts (R91, R198): `none` where it is not checked. -/
def requiredLength : MessageType → Option Nat
  | .keypress => some 3
  | .positionRotation => some 24
  | .modeChange => some 1
  | .sensitivityChange => some 2
  | .version => none
  | .zero => none
  | .unknown => none

/-- The bytes of the six outbound commands (R101). -/
def bytesCmdReset : List Byte := [0x0D#8, 0x76#8, 0x74#8, 0x0D#8]
/-- `CMD_GET_VERSION` (R101). -/
def bytesCmdGetVersion : List Byte := [0x76#8, 0x51#8, 0x0D#8]
/-- `CMD_BUTTON_REPORTING` (R101). -/
def bytesCmdButtonReporting : List Byte := [0x6B#8, 0x51#8, 0x0D#8]
/-- `CMD_SET_MODE` (R101). -/
def bytesCmdSetMode : List Byte := [0x6D#8, 0x33#8, 0x0D#8]
/-- `CMD_ZERO` (R101). -/
def bytesCmdZero : List Byte := [0x7A#8, 0x0D#8]
/-- `CMD_BEEP` (R101). -/
def bytesCmdBeep : List Byte := [0x62#8, 0x0D#8]

/-- The bytes before the first terminator and the bytes after it (R92: the length is found only by
scanning for the terminator). -/
def splitTerminator : List Byte → Option (List Byte × List Byte)
  | [] => none
  | b :: bs =>
    if b = terminator then some ([], bs)
    else match splitTerminator bs with
      | none => none
      | some (p, rest) => some (b :: p, rest)

/-- The frame instruction of a tag and a payload (R91). -/
def frameInstr (tag : Byte) (payload : List Byte) : Instr :=
  match classify tag with
  | .version => .version payload
  | .keypress => .keypress payload
  | .positionRotation => .posrot payload
  | .modeChange => .mode payload
  | .zero => .zero payload
  | .sensitivityChange => .sens payload
  | .unknown => .unknown tag (tag :: payload)

/-- An inbound frame `tag ++ payload ++ TERMINATOR` (R90). The tag is whatever byte comes first,
0x0D included (R148). -/
def decodeFrame : List Byte → Except DecodeError Instr
  | [] => .error .noTag
  | tag :: rest =>
    match splitTerminator rest with
    | none => .error .unterminatedFrame
    | some (payload, []) => .ok (frameInstr tag payload)
    | some (_, _ :: _) => .error .bytesAfterTerminator

/-- An outbound command (R101). `BEEP` takes no time (R261), so the beep command keeps none. -/
def decodeCommand (now : Time) (bytes : List Byte) : Except DecodeError Instr :=
  if bytes = bytesCmdReset then .ok (.cmdReset now)
  else if bytes = bytesCmdGetVersion then .ok (.cmdGetVersion now)
  else if bytes = bytesCmdButtonReporting then .ok (.cmdButtonReporting now)
  else if bytes = bytesCmdSetMode then .ok (.cmdSetMode now)
  else if bytes = bytesCmdZero then .ok (.cmdZero now)
  else if bytes = bytesCmdBeep then .ok .cmdBeep
  else .error .notACommand

/-- A report from the block to the host, by its identifier (R69). -/
def decodeSendReport (now : Time) (id : Byte) : Except DecodeError Instr :=
  if id = reportIdTranslation then .ok (.reportTranslation now)
  else if id = reportIdRotation then .ok (.reportRotation now)
  else if id = reportIdButtons then .ok (.reportButtons now)
  else .error (.noSuchReport id)

/-- A report from the host: two bytes, the first the LED identifier (R105). -/
def decodeHostReport (now : Time) : List Byte → Except DecodeError Instr
  | [id, l] => if id = reportIdLed then .ok (.reportLed ⟨now, l⟩) else .error .notAnLedReport
  | _ => .error .notAnLedReport

/-- The decoder: the instruction of a request, or the reason it is none. -/
def decode : Request → Except DecodeError Instr
  | .frame bytes => decodeFrame bytes
  | .character c => .ok (.nibble c)
  | .command now bytes => decodeCommand now bytes
  | .sendReport now id => decodeSendReport now id
  | .hostReport now bytes => decodeHostReport now bytes
  | .rxByte b => .ok (.rxByte b)
  | .initTick now => .ok (.initTick now)
  | .hidTick now inbound => .ok (.hidTick now inbound)
  | .softReset => .ok .softReset
  | .beep => .ok .beep

/-- The bytes of a frame (R90). -/
def frameBytes (tag : Byte) (payload : List Byte) : List Byte := tag :: (payload ++ [terminator])

/-- The encoder: the request of an instruction, from the tables of R91, R101, R69 and R105. -/
def encode : Instr → Request
  | .version p => .frame (frameBytes 0x76#8 p)
  | .keypress p => .frame (frameBytes 0x6B#8 p)
  | .posrot p => .frame (frameBytes 0x64#8 p)
  | .mode p => .frame (frameBytes 0x6D#8 p)
  | .zero p => .frame (frameBytes 0x7A#8 p)
  | .sens p => .frame (frameBytes 0x71#8 p)
  | .unknown _ bytes => .frame (bytes ++ [terminator])
  | .nibble c => .character c
  | .cmdReset now => .command now bytesCmdReset
  | .cmdGetVersion now => .command now bytesCmdGetVersion
  | .cmdButtonReporting now => .command now bytesCmdButtonReporting
  | .cmdSetMode now => .command now bytesCmdSetMode
  | .cmdZero now => .command now bytesCmdZero
  | .cmdBeep => .command 0#32 bytesCmdBeep
  | .reportTranslation now => .sendReport now reportIdTranslation
  | .reportRotation now => .sendReport now reportIdRotation
  | .reportButtons now => .sendReport now reportIdButtons
  | .reportLed l => .hostReport l.now [reportIdLed, l.value]
  | .rxByte b => .rxByte b
  | .initTick now => .initTick now
  | .hidTick now inbound => .hidTick now inbound
  | .softReset => .softReset
  | .beep => .beep

/-- The lowest `n` bytes of `w`, least significant first. -/
def lowBytes : Nat → Nat → List Byte
  | 0, _ => []
  | n + 1, w => BitVec.ofNat 8 w :: lowBytes n (w / 256)

/-- The commands of R101, for the lookup of a table word. -/
def commandTable : List (List Byte) :=
  [bytesCmdReset, bytesCmdGetVersion, bytesCmdButtonReporting, bytesCmdSetMode, bytesCmdZero,
   bytesCmdBeep]

/-- A frame whose operand bytes the table does not give: the tag, the bytes that are given, zeros
up to the payload length its type requires, and the terminator the format fixes. -/
def paddedFrame (tag : Byte) (given : List Byte) : List Byte :=
  frameBytes tag
    (given ++ List.replicate ((requiredLength (classify tag)).getD 0 - given.length) 0#8)

/-- The request that a word of spec/opcode_table.json stands for (log entry 3). A command's `match`
is its bytes read as one number, first byte highest. Every other row's bits begin at byte 0: 48
bits are a translation report, two bytes with a first byte 4 (or the byte 4 alone) an LED report,
two other bytes a button report, and any other bytes an inbound frame, tag first. -/
def tableRequest (nbits w : Nat) : Request :=
  let n := nbits / 8
  let highFirst := (lowBytes n w).reverse
  if commandTable.contains highFirst then .command 0#32 highFirst
  else if n = 6 then .sendReport 0#32 reportIdTranslation
  else
    match lowBytes (max 1 n) w with
    | [b] => if b = reportIdLed then .hostReport 0#32 [b, 0#8] else .frame (paddedFrame b [])
    | [b, l] =>
      if b = reportIdLed then .hostReport 0#32 [b, l] else .sendReport 0#32 reportIdButtons
    | b :: given => .frame (paddedFrame b given)
    | [] => .frame []

/-- The instruction the decoder reads from a word of the opcode table. -/
def decodeTableWord (nbits w : Nat) : Option Instr :=
  match decode (tableRequest nbits w) with
  | .ok i => some i
  | .error _ => none

end Sys2Proof
end

