-- ==== Sys2Proof/Machine/State.lean ====
section
/-! DEFINITION. The state of the block (10_state.md R20, 20_memory.md R60), its output streams
(R8), the fields the model adds, the reasons a step can stop, and reset (R43, R310). -/

namespace Sys2Proof.Machine

/-- RxState (R21). -/
inductive RxState where
  | idle | readingMessage | drainingOverflow
  deriving DecidableEq, Repr

/-- InitState, in handshake order (R25). -/
inductive InitState where
  | reset | requestVersion | waitVersion | requestButtonReporting | requestSetMode | waitSetMode
  | requestZero | waitZero | done
  deriving DecidableEq, Repr

/-- HidState (R26). -/
inductive HidState where
  | idle | sendTranslation | sendRotation | sendButtons
  deriving DecidableEq, Repr

/-- The diagnostic events (R281). -/
inductive DiagEvent where
  | frameOverflow | malformedPayload | handshakeStall | versionMismatch
  deriving DecidableEq, Repr

/-- A record of the USB report stream: `(id, data)` (R16). -/
structure Report where
  id : Byte
  data : List Byte
  deriving DecidableEq, Repr

/-- MouseSnapshot: six normalized axes and the button mask (R35). -/
structure Snapshot where
  axes : Axes Norm
  buttons : Mask
  deriving DecidableEq, Repr

/-- What an operation returns to whoever invoked it (R262 and the signatures of R130, R145, R160,
R231, R260, R261). -/
inductive Ret where
  /-- `()`. -/
  | unit
  /-- `RX_BYTE`: the message, if a frame completed, and `changed`. -/
  | rx (message : Option Message) (changed : Bool)
  /-- `decode_nibble`. -/
  | nibble (n : Nib)
  /-- The command transmitted, if one was. -/
  | command (c : Option (List Byte))
  /-- The report sent, if one was. -/
  | report (r : Option Report)
  deriving DecidableEq, Repr

/-- The receive buffer `rx_buf` (R60) as its written cells: pairs (index, byte), indices strictly
rising. An index that is not listed holds the free byte `Config.freeByte` of the index (U14). -/
abbrev Memory := List Host.Cell

/-- The state of the block. Field by field: INVENTORY.md, '## State'. -/
structure State where
  /-- The configuration (R39): fixed before reset is released, written by no operation. It stands
  in the state because `exec` takes no other argument (log entry 2). -/
  cfg : Config
  /-- `rx_state` (R21). -/
  rxState : RxState
  /-- `rx_type` (R22). -/
  rxType : MessageType
  /-- `rx_len` (R23). -/
  rxLen : Nat
  /-- `rx_buf` (R60). -/
  rxBuf : Memory
  /-- `init_state` (R25). -/
  initState : InitState
  /-- `last_reset_time` (R32). -/
  lastResetTime : Time
  /-- `gate_start` (R33). -/
  gateStart : Time
  /-- `gate_len`, milliseconds (R33). -/
  gateLen : Nat
  /-- `raw_x` to `raw_w` (R28). -/
  raw : Axes I16
  /-- `buttons` (R29). -/
  buttons : Mask
  /-- `sens_t` (R30). -/
  sensT : Nib
  /-- `sens_r` (R30). -/
  sensR : Nib
  /-- `mode` (R31). -/
  mode : Nib
  /-- `hid_state` (R26). -/
  hidState : HidState
  /-- `submit` (R35). -/
  submit : Snapshot
  /-- `last_send_time` (R34). -/
  lastSendTime : Time
  /-- `led` (R36). -/
  led : Bool
  /-- The UART transmit stream (R16, R40). -/
  uartTx : List Byte
  /-- The USB report stream (R16, R40). -/
  usbTx : List Report
  /-- The diagnostic event stream (R16, R298). -/
  diag : List DiagEvent
  /-- The model's own: what the last operation returned. -/
  ret : Ret
  /-- The model's own: how many free values have been drawn. -/
  draws : Nat
  /-- The model's own: what the environment presents next, first entry first. -/
  schedule : List Request
  deriving DecidableEq, Repr

/-- Why the machine stops with a fault: it never does. "No error stops the block" (R280, R9), and
the type has no constructor. -/
inductive Fault
  deriving DecidableEq, Repr

/-- Why the model gives no behaviour. -/
inductive Refusal where
  /-- Raised by `exec` for an instruction without a meaning. Safe. -/
  | notModelled (mnemonic : String)
  /-- Raised by every meaning and every step when the configuration is ill-formed (R12, U7:
  "refuse"). Safe. -/
  | illFormedConfig
  /-- Raised by an access to `rx_buf` outside 0 to `RX_CAPACITY - 1` (R61: "a refusal of the model
  (unreachable)"). Safe. -/
  | rxBufOutOfRange (index : Nat)
  deriving DecidableEq, Repr

/-- Hard reset with a configuration (R43, R310). `rx_buf` is unspecified: nothing is listed, so
every index holds a free byte (U14). `submit` is six `Norm` zeros and an empty mask, and the gate
reads as expired. -/
def State.resetWith (cfg : Config) : State where
  cfg := cfg
  rxState := .idle
  rxType := .unknown
  rxLen := 0
  rxBuf := []
  initState := .reset
  lastResetTime := 0#32
  gateStart := 0#32
  gateLen := 0
  raw := Axes.all 0#16
  buttons := 0#16
  sensT := 0#4
  sensR := 0#4
  mode := 0#4
  hidState := .idle
  submit := ⟨Axes.all 0#32, 0#16⟩
  lastSendTime := 0#32
  led := false
  uartTx := []
  usbTx := []
  diag := []
  ret := .unit
  draws := 0
  schedule := []

/-- The machine right after reset. DESIGN CHOICE (log entry 2): its configuration is the instance
of 95_test_vectors.md; the rules leave it open. -/
def State.reset : State := State.resetWith Config.vectors

end Sys2Proof.Machine
end

