-- ==== Sys2Proof/Machine/Flags.lean ====
section
/-! DEFINITION. The conditions the operations test. The block has no condition codes (R38): what
stands in their place are the three elapsed-time comparisons of R294 and the `ready` predicate. -/

namespace Sys2Proof.Machine

/-- `elapsed(t0, now) = (now − t0) mod 2^TIME_WIDTH` (R17). -/
def elapsed (t0 now : Time) : Nat := (now - t0).toNat

/-- `gate_expired(now)` (R33, R171): inclusive. -/
def gateExpired (now : Time) (s : State) : Bool := decide (s.gateLen ≤ elapsed s.gateStart now)

/-- `interval_elapsed(now)` (R237): inclusive. -/
def intervalElapsed (now : Time) (s : State) : Bool :=
  decide (minReportIntervalMs ≤ elapsed s.lastSendTime now)

/-- The condition of the stuck check (R161): strictly more than 5000 ms since the last Reset step,
in a state other than `Reset` and `Done`. -/
def stuck (now : Time) (s : State) : Bool :=
  decide (s.initState ≠ .reset ∧ s.initState ≠ .done ∧
    stuckTimeoutMs < elapsed s.lastResetTime now)

/-- `ready()` (R38). -/
def ready (s : State) : Bool := decide (s.initState = .done)

end Sys2Proof.Machine
end

