-- ==== Sys2Proof/Machine/Numerics.lean ====
section
/-! DEFINITION. The default `NUMERICS`: binary32 division (R214), the physical mapping (R217) and
the normalization of an axis (R211). Exact integers throughout, rounded once at the end. -/

namespace Sys2Proof.Machine

/-- The integer nearest to `num / den`, ties to even. -/
def roundRatio (num den : Nat) : Nat :=
  let q := num / den
  let r := num % den
  if 2 * r < den then q
  else if den < 2 * r then q + 1
  else q + q % 2

/-- `num / den` scaled by 2^s, as a pair of naturals. -/
def scaleRatio (num den : Nat) (s : Int) : Nat × Nat :=
  (num * 2 ^ s.toNat, den * 2 ^ (-s).toNat)

/-- The power of two that brings the positive ratio `num / den` into [2^23, 2^24), the range of a
binary32 significand. -/
def significandScale (num den : Nat) : Int :=
  let s : Int := 24 + (Nat.log2 den : Int) - (Nat.log2 num : Int)
  let p := scaleRatio num den s
  if 2 ^ 24 ≤ p.1 / p.2 then s - 1 else s

/-- The binary32 bits of the value nearest to the positive ratio `num / den`, ties to even, for a
ratio in the normal range. A significand that rounds up to 2^24 carries into the exponent. -/
def ratioBits (num den : Nat) : Nat :=
  let s := significandScale num den
  let p := scaleRatio num den s
  ((149 - s) * 2 ^ 23 + (roundRatio p.1 p.2 : Int)).toNat

/-- `NORM_ZERO`, the binary32 value +0.0 (R213). -/
def normZero : Norm := 0#32

/-- `norm_div(n, d)`: the binary32 value nearest to `n / d`, ties to even (R214). -/
def normDiv (n d : I16) : Norm :=
  let bits := ratioBits n.toInt.natAbs d.toInt.natAbs
  if n.toInt = 0 then normZero
  else if (decide (n.toInt < 0)) = (decide (d.toInt < 0)) then BitVec.ofNat 32 bits
  else BitVec.ofNat 32 (2 ^ 31 + bits)

/-- The sign bit of a binary32 number. -/
def normNegative (v : Norm) : Bool := decide (2 ^ 31 ≤ v.toNat)

/-- The biased exponent of a binary32 number. -/
def normExponent (v : Norm) : Nat := v.toNat / 2 ^ 23 % 256

/-- The significand of a binary32 number, its hidden bit included. -/
def normSignificand (v : Norm) : Nat :=
  if normExponent v = 0 then v.toNat % 2 ^ 23 else 2 ^ 23 + v.toNat % 2 ^ 23

/-- The magnitude of the binary32 product of `v` and `PHYS_RANGE`, rounded to 24 significant bits,
ties to even, then truncated to an integer (R217). A product below 2^-126 truncates to 0 whatever
its rounding. -/
def physMagnitude (v : Norm) : Nat :=
  let product := normSignificand v * physRange
  let dropped := Nat.log2 product - 23
  let rounded := roundRatio product (2 ^ dropped)
  let e : Int := (max 1 (normExponent v) : Nat) + (dropped : Int) - 150
  let p := scaleRatio rounded 1 e
  p.1 / p.2

/-- `phys_map(v)` (R217): `v × 800` in binary32, truncated toward zero, when that integer is an
`int16`; `none` where the result is unspecified (U6), infinities and NaNs included. -/
def physMap (v : Norm) : Option I16 :=
  let m : Int := if normNegative v then -(physMagnitude v : Int) else physMagnitude v
  if normExponent v = 255 then none
  else if -32768 ≤ m ∧ m ≤ 32767 then some (BitVec.ofInt 16 m)
  else none

/-- The number a report carries for `v`: `phys_map(v)`, and a free value, draw number `k`, where
that is unspecified (U6). -/
def physField (k : Nat) (v : Norm) : I16 := (physMap v).getD (Config.freeInt16 k)

/-- The arithmetic of `get_norm` (R211): positive raw values divide by the maximum, negative ones by
the minimum, zero gives `NORM_ZERO`. -/
def normalize (c : Calibration) (raw : I16) : Norm :=
  if 0 < raw.toInt then normDiv raw c.max
  else if raw.toInt < 0 then normDiv raw c.min
  else normZero

end Sys2Proof.Machine
end

