-- ==== Sys2Proof/Machine/Operands.lean ====
section
/-! DEFINITION. The operand forms: nibble characters and signed words (40_nibble_codec.md), byte and
bit orders (20_memory.md), the substring search (R200), the optional numberings of R44. -/

namespace Sys2Proof.Machine

/-- The index of the first entry equal to `c`, counted from `n`; 0 where there is none. -/
def nibbleFrom (c : Byte) : Nat → List Byte → Nib
  | _, [] => 0#4
  | n, a :: as => if c = a then BitVec.ofNat 4 n else nibbleFrom c (n + 1) as

/-- `decode_nibble(c)` (R130): unrecognized bytes give 0. -/
def decodeNibble (cfg : Config) (c : Byte) : Nib := nibbleFrom c 0 cfg.nibbleAlphabet

/-- The magnitude `(n1 << 8) | (n2 << 4) | n3` of a signed word (R66, R131). -/
def magnitude (cfg : Config) (c1 c2 c3 : Byte) : Nat :=
  ((decodeNibble cfg c1).toNat <<< 8) ||| ((decodeNibble cfg c2).toNat <<< 4) |||
    (decodeNibble cfg c3).toNat

/-- `decode_signed_word` (R131): bit 3 of the first nibble chooses the magnitude or the magnitude
minus 4096; its other bits are ignored (R110). -/
def decodeSignedWord (cfg : Config) (c0 c1 c2 c3 : Byte) : I16 :=
  if (decodeNibble cfg c0).getLsbD 3 then BitVec.ofInt 16 (magnitude cfg c1 c2 c3)
  else BitVec.ofInt 16 ((magnitude cfg c1 c2 c3 : Int) - 4096)

/-- The signed word at offset `o` of a payload (`W(o)` of R196). -/
def wordAt (cfg : Config) (p : List Byte) (o : Nat) : I16 :=
  decodeSignedWord cfg (p.getD o 0#8) (p.getD (o + 1) 0#8) (p.getD (o + 2) 0#8)
    (p.getD (o + 3) 0#8)

/-- The six raw axes of a PositionRotation payload: x, z, y, v, w, u at offsets 0, 4, 8, 12, 16, 20
(R69, R96, R196). -/
def posrotAxes (cfg : Config) (p : List Byte) : Axes I16 where
  x := wordAt cfg p 0
  z := wordAt cfg p 4
  y := wordAt cfg p 8
  v := wordAt cfg p 12
  w := wordAt cfg p 16
  u := wordAt cfg p 20

/-- A mask cut to `BUTTON_COUNT` bits (R29, R195). -/
def cutMask (count : Nat) (m : Mask) : Mask := m &&& BitVec.ofNat 16 (2 ^ count - 1)

/-- The button bitmap `(k2 << 8) | (k1 << 4) | k0` of a Keypress payload (R66, R95). -/
def keypressBitmap (cfg : Config) (p : List Byte) : Mask :=
  ((decodeNibble cfg (p.getD 2 0#8)).setWidth 16 <<< 8) |||
  ((decodeNibble cfg (p.getD 1 0#8)).setWidth 16 <<< 4) |||
  (decodeNibble cfg (p.getD 0 0#8)).setWidth 16

/-- `contains(payload, length, magic)` (R200): byte-exact, at any offset. -/
def containsBytes (magic : List Byte) : List Byte → Bool
  | [] => magic.isEmpty
  | b :: bs => magic.isPrefixOf (b :: bs) || containsBytes magic bs

/-- `le16(p)`: least significant byte first (R64). -/
def le16 (p : I16) : List Byte := [p.extractLsb' 0 8, p.extractLsb' 8 8]

/-- `pack_buttons(mask)` (R65, R104, R239): `ceil(BUTTON_COUNT / 8)` bytes, button `8j + b` at bit
`b` of byte `j`, bits at `BUTTON_COUNT` and above 0. -/
def packButtons (count : Nat) (m : Mask) : List Byte :=
  (List.range ((count + 7) / 8)).map fun j => (cutMask count m).extractLsb' (8 * j) 8

/-- `enc_nibble(n)` (R112), the test bench's. -/
def encNibble (cfg : Config) (n : Nat) : Byte := cfg.nibbleAlphabet.getD n 0#8

/-- `enc_word(v)` for -4096 ≤ v ≤ 4095 (R112), the test bench's. -/
def encWord (cfg : Config) (v : Int) : List Byte :=
  let m := (if 0 ≤ v then v else v + 4096).toNat
  [encNibble cfg (if 0 ≤ v then 8 else 0), encNibble cfg (m / 256 % 16),
   encNibble cfg (m / 16 % 16), encNibble cfg (m % 16)]

/-- The optional 2-bit rendering of RxState (R44); no rule depends on it. -/
def rxStateCode : RxState → BitVec 2
  | .idle => 0#2
  | .readingMessage => 1#2
  | .drainingOverflow => 2#2

/-- The optional 4-bit rendering of InitState (R44). -/
def initStateCode : InitState → BitVec 4
  | .reset => 0#4
  | .requestVersion => 1#4
  | .waitVersion => 2#4
  | .requestButtonReporting => 3#4
  | .requestSetMode => 4#4
  | .waitSetMode => 5#4
  | .requestZero => 6#4
  | .waitZero => 7#4
  | .done => 8#4

/-- The optional 2-bit rendering of HidState (R44). -/
def hidStateCode : HidState → BitVec 2
  | .idle => 0#2
  | .sendTranslation => 1#2
  | .sendRotation => 2#2
  | .sendButtons => 3#2

/-- The optional 3-bit rendering of MessageType (R44). -/
def messageTypeCode : MessageType → BitVec 3
  | .version => 0#3
  | .keypress => 1#3
  | .positionRotation => 2#3
  | .modeChange => 3#3
  | .zero => 4#3
  | .sensitivityChange => 5#3
  | .unknown => 6#3

end Sys2Proof.Machine
end

