-- ==== Sys2Proof/Machine/Ops.lean ====
section
/-! DEFINITION. The named operations over the state: the receive buffer (R61), the output
primitives (R16), the read accessors (R37), the live snapshot (R215), the stuck-timeout as the
block's one trap (R161, R290), and the configuration guard (R12). -/

namespace Sys2Proof.Machine

/-- The three outcomes of an operation of the block. -/
abbrev Result := Host.Outcome State Fault Refusal

/-- R12: the model gives no behaviour for an ill-formed configuration. -/
def configured (s : State) (r : Result) : Result :=
  if s.cfg.wellFormed then r else .refused .illFormedConfig

/-! ### The receive buffer -/

/-- The cells' indices rise strictly. An entry is never known to equal what an unlisted index reads
as, since that is a free value: the cells are exactly the written ones (log entry 8). -/
def Memory.wf (m : Memory) : Bool := decide ((m.map Prod.fst).Pairwise (· < ·))

/-- The byte at an index: any value where nothing has been written (U14, log entry 8). -/
def Memory.read : Memory → Nat → Byte
  | [], a => Config.freeByte a
  | (b, v) :: m, a => if b = a then v else Memory.read m a

/-- The buffer with byte `v` at index `a`, in its canonical form. -/
def Memory.write : Memory → Nat → Byte → Memory
  | [], a, v => [(a, v)]
  | (b, w) :: m, a, v =>
    if a < b then (a, v) :: (b, w) :: m
    else if a = b then (a, v) :: m
    else (b, w) :: Memory.write m a v

/-- `MemRead(i, 1)` (R61): outside 0 to `RX_CAPACITY − 1` it is a refusal of the model. -/
def memRead (i : Nat) (s : State) : Host.Outcome Byte Fault Refusal :=
  if i < s.cfg.rxCapacity then .next (Memory.read s.rxBuf i)
  else .refused (.rxBufOutOfRange i)

/-- `MemWrite(i, 1, v)` (R61): outside 0 to `RX_CAPACITY − 1` it is a refusal of the model. -/
def memWrite (i : Nat) (v : Byte) (s : State) : Result :=
  if i < s.cfg.rxCapacity then .next { s with rxBuf := Memory.write s.rxBuf i v }
  else .refused (.rxBufOutOfRange i)

/-- `rx_buf[0 .. n)` (R62). -/
def Memory.readRange (m : Memory) (n : Nat) : List Byte := (List.range n).map (Memory.read m)

/-! ### Output primitives (R16) -/

/-- `uart_tx(s)`: the bytes, in order, as one uninterruptible action, then a flush (R174). The
flush means only that the bytes have left the block (R75). -/
def uartSend (bytes : List Byte) (s : State) : State := { s with uartTx := s.uartTx ++ bytes }

/-- `usb_send(id, data)`. -/
def usbSend (r : Report) (s : State) : State := { s with usbTx := s.usbTx ++ [r] }

/-- `diag(E)`. -/
def diagnose (e : DiagEvent) (s : State) : State := { s with diag := s.diag ++ [e] }

/-- The model's record of what the operation returns. -/
def answer (r : Ret) (s : State) : State := { s with ret := r }

/-! ### Read accessors (R37): pure functions of the state -/

/-- `get_raw(a)`. -/
def getRaw (a : Axis) (s : State) : I16 := s.raw.get a

/-- `get_norm(a)` (R211). -/
def getNorm (a : Axis) (s : State) : Norm := normalize (s.cfg.cal.get a) (s.raw.get a)

/-- `get_buttons()`. -/
def getButtons (s : State) : Mask := s.buttons

/-- `get_sens_t()`. -/
def getSensT (s : State) : Nib := s.sensT

/-- `get_sens_r()`. -/
def getSensR (s : State) : Nib := s.sensR

/-- `get_mode()`. -/
def getMode (s : State) : Nib := s.mode

/-- `get_init_state()`. -/
def getInitState (s : State) : InitState := s.initState

/-- `get_led()`. -/
def getLed (s : State) : Bool := s.led

/-- `live()`: the snapshot of the current MotionState (R215). -/
def live (s : State) : Snapshot := ⟨Axes.ofFn fun a => getNorm a s, s.buttons⟩

/-! ### The elapsed-time gate and the stuck-timeout -/

/-- Arming the gate (R33). -/
def armGate (now : Time) (len : Nat) (s : State) : State :=
  { s with gateStart := now, gateLen := len }

/-- Taking the stuck-timeout (R161, R290), the block's one trap-like entry: it saves nothing and
forces `Reset`; the same tick then performs the Reset step. There is no return (R291): the
handshake starts again from the beginning. -/
def takeStall (s : State) : State := diagnose .handshakeStall { s with initState := .reset }

/-- `stuck_check(now)` (R161). -/
def stuckCheck (now : Time) (s : State) : State := if stuck now s then takeStall s else s

end Sys2Proof.Machine
end

