-- ==== Sys2Proof/Machine/Sequencer.lean ====
section
/-! DEFINITION. InitSequencer (42_init_sequencer.md): the state steps of `INIT_TICK`. Each gives the
state and the command it transmitted, if any. -/

namespace Sys2Proof.Machine

/-- Step `Reset` (R162): not gated. -/
def stepReset (now : Time) (s : State) : State × Option (List Byte) :=
  let t := armGate now resetSettleMs (uartSend bytesCmdReset s)
  ({ t with lastResetTime := now, initState := .requestVersion }, some bytesCmdReset)

/-- Step `RequestVersion` (R163): waits for the settle gate. -/
def stepRequestVersion (now : Time) (s : State) : State × Option (List Byte) :=
  if gateExpired now s then
    ({ uartSend bytesCmdGetVersion s with initState := .waitVersion }, some bytesCmdGetVersion)
  else (s, none)

/-- Step `RequestButtonReporting` (R165): not gated; no acknowledgement is awaited. -/
def stepRequestButtonReporting (now : Time) (s : State) : State × Option (List Byte) :=
  let t := armGate now buttonAckMs (uartSend bytesCmdButtonReporting s)
  ({ t with initState := .requestSetMode }, some bytesCmdButtonReporting)

/-- Step `RequestSetMode` (R166): waits for the button gate. -/
def stepRequestSetMode (now : Time) (s : State) : State × Option (List Byte) :=
  if gateExpired now s then
    ({ uartSend bytesCmdSetMode s with initState := .waitSetMode }, some bytesCmdSetMode)
  else (s, none)

/-- Step `RequestZero` (R168): not gated. -/
def stepRequestZero (s : State) : State × Option (List Byte) :=
  ({ uartSend bytesCmdZero s with initState := .waitZero }, some bytesCmdZero)

/-- The one state step of a tick, by `init_state` (R172): no fall-through. The Wait states and
`Done` do nothing (R164, R167, R169, R170). -/
def initStep (now : Time) (s : State) : State × Option (List Byte) :=
  match s.initState with
  | .reset => stepReset now s
  | .requestVersion => stepRequestVersion now s
  | .waitVersion => (s, none)
  | .requestButtonReporting => stepRequestButtonReporting now s
  | .requestSetMode => stepRequestSetMode now s
  | .waitSetMode => (s, none)
  | .requestZero => stepRequestZero s
  | .waitZero => (s, none)
  | .done => (s, none)

/-- `INIT_TICK(now)` (R172): the stuck check, then one state step. DESIGN CHOICE (log entry 17): five
ticks can complete a handshake, one for each commanding step; the "at least six ticks" of R176, which
lists five steps, is not followed. -/
def initTick (now : Time) (s : State) : State × Option (List Byte) :=
  initStep now (stuckCheck now s)

/-- The tick at `now`, if the step it selects after the stuck check is the step of `want`; else
nothing. -/
def tickOf (want : InitState) (now : Time) (s : State) : State × Option (List Byte) :=
  if (stuckCheck now s).initState = want then initTick now s else (s, none)

/-- `BEEP` (R261). -/
def transmitBeep (s : State) : State × Option (List Byte) :=
  (uartSend bytesCmdBeep s, some bytesCmdBeep)

/-- The outcome of a transmitting operation: the state, the returned command recorded. -/
def transmitted (r : State × Option (List Byte)) : Result :=
  .next (answer (.command r.2) r.1)

end Sys2Proof.Machine
end

