-- ==== Sys2Proof/Machine/Commands.lean ====
section
/-! DEFINITION. The meanings of the six outbound commands. A handshake command's meaning is the
state step that transmits it (R162, R163, R165, R166, R168): the tick at `now` when it selects that
step, and nothing when it does not, since no other step transmits the command (R101, R173; log
entry 1). -/

namespace Sys2Proof.Machine

/-- `CMD_RESET` (R162). -/
def execCmdReset (now : Time) (s : State) : Result :=
  configured s (transmitted (tickOf .reset now s))

/-- `CMD_GET_VERSION` (R163). -/
def execCmdGetVersion (now : Time) (s : State) : Result :=
  configured s (transmitted (tickOf .requestVersion now s))

/-- `CMD_BUTTON_REPORTING` (R165). -/
def execCmdButtonReporting (now : Time) (s : State) : Result :=
  configured s (transmitted (tickOf .requestButtonReporting now s))

/-- `CMD_SET_MODE` (R166). -/
def execCmdSetMode (now : Time) (s : State) : Result :=
  configured s (transmitted (tickOf .requestSetMode now s))

/-- `CMD_ZERO` (R168). -/
def execCmdZero (now : Time) (s : State) : Result :=
  configured s (transmitted (tickOf .requestZero now s))

/-- `CMD_BEEP` (R261). -/
def execCmdBeep (s : State) : Result :=
  configured s (transmitted (transmitBeep s))

end Sys2Proof.Machine
end

