-- ==== Sys2Proof/Machine/Framer.lean ====
section
/-! DEFINITION. SerialFramer (41_serial_framer.md): the three steps of `feed`. -/

namespace Sys2Proof.Machine

/-- What `feed` leaves: the state and the message, if the byte completed one (R140). -/
abbrev FeedResult := Host.Outcome (State × Option Message) Fault Refusal

/-- `feed` in `Idle` (R142): every byte value is a tag, the terminator included (R148). -/
def feedIdle (b : Byte) (s : State) : FeedResult :=
  .next ({ s with rxType := classify b, rxLen := 0, rxState := .readingMessage }, none)

/-- A frame completes (R62, R143): 0x00 at index `rx_len`, back to `Idle`, and the message
`(rx_type, rx_buf[0 .. rx_len), rx_len)`. -/
def feedTerminator (s : State) : FeedResult :=
  match memWrite s.rxLen 0#8 s with
  | .next t =>
    .next ({ t with rxState := .idle }, some ⟨s.rxType, Memory.readRange t.rxBuf s.rxLen⟩)
  | .fault f => .fault f
  | .refused r => .refused r

/-- A payload byte is stored (R143). -/
def feedStore (b : Byte) (s : State) : FeedResult :=
  match memWrite s.rxLen b s with
  | .next t => .next ({ t with rxLen := s.rxLen + 1 }, none)
  | .fault f => .fault f
  | .refused r => .refused r

/-- The buffer is full (R143, R282): the byte and the frame are dropped. -/
def feedOverflow (s : State) : FeedResult :=
  .next (diagnose .frameOverflow { s with rxState := .drainingOverflow }, none)

/-- `feed` in `ReadingMessage` (R143): the terminator test comes before the capacity test. -/
def feedReading (b : Byte) (s : State) : FeedResult :=
  if b = terminator then feedTerminator s
  else if s.rxLen < s.cfg.rxCapacity - 1 then feedStore b s
  else feedOverflow s

/-- `feed` in `DrainingOverflow` (R144). -/
def feedDraining (b : Byte) (s : State) : FeedResult :=
  .next (if b = terminator then { s with rxState := .idle } else s, none)

/-- `feed(b)` (R140), by `rx_state` at entry. -/
def feed (b : Byte) (s : State) : FeedResult :=
  match s.rxState with
  | .idle => feedIdle b s
  | .readingMessage => feedReading b s
  | .drainingOverflow => feedDraining b s

end Sys2Proof.Machine
end

