-- ==== Sys2Proof/Machine/Interpreter.lean ====
section
/-! DEFINITION. MessageInterpreter (43_message_interpreter.md). Every handler gives the state and
the result of R199: true exactly when it executed a register write. -/

namespace Sys2Proof.Machine

/-- A length-checked message of another length (R198, R284): no write, `diag(MalformedPayload)`. -/
def malformed (s : State) : State × Bool := (diagnose .malformedPayload s, false)

/-- `on_version` (R191): the magic test precedes the state test (R289). -/
def onVersion (p : List Byte) (s : State) : State × Bool :=
  if containsBytes s.cfg.versionMagic p then
    if s.initState = .waitVersion then ({ s with initState := .requestButtonReporting }, true)
    else (s, false)
  else (diagnose .versionMismatch s, false)

/-- `on_mode` (R192): the mode is stored, then compared with the one this message carries. -/
def onMode (p : List Byte) (s : State) : State × Bool :=
  if p.length = 1 then
    let reported := decodeNibble s.cfg (p.getD 0 0#8)
    let t := { s with mode := reported }
    if s.initState = .waitSetMode ∧ reported = expectedMode then
      ({ t with initState := .requestZero }, true)
    else (t, true)
  else malformed s

/-- `on_sens` (R193): translation first, no range check. -/
def onSens (p : List Byte) (s : State) : State × Bool :=
  if p.length = 2 then
    ({ s with sensT := decodeNibble s.cfg (p.getD 0 0#8),
              sensR := decodeNibble s.cfg (p.getD 1 0#8) }, true)
  else malformed s

/-- `on_zero` (R194): the payload is not validated. -/
def onZero (s : State) : State × Bool :=
  if s.initState = .waitZero then ({ s with initState := .done }, true) else (s, false)

/-- `on_keypress` (R195): the whole mask. -/
def onKeypress (p : List Byte) (s : State) : State × Bool :=
  if p.length = 3 then
    ({ s with buttons := cutMask s.cfg.buttonCount (keypressBitmap s.cfg p) }, true)
  else malformed s

/-- `on_posrot` (R196): all six raw registers together. -/
def onPosrot (p : List Byte) (s : State) : State × Bool :=
  if p.length = 24 then ({ s with raw := posrotAxes s.cfg p }, true) else malformed s

/-- `interpret(m)` (R190). -/
def interpret (m : Message) (s : State) : State × Bool :=
  match m.type with
  | .version => onVersion m.payload s
  | .modeChange => onMode m.payload s
  | .sensitivityChange => onSens m.payload s
  | .zero => onZero s
  | .keypress => onKeypress m.payload s
  | .positionRotation => onPosrot m.payload s
  | .unknown => (s, false)

end Sys2Proof.Machine
end

