-- ==== Sys2Proof/Machine/Receive.lean ====
section
/-! DEFINITION. The receive path (R145): `RX_BYTE` as the composition of the framer and the
interpreter, and bytes received one after another. -/

namespace Sys2Proof.Machine

/-- `RX_BYTE` after `feed` (R145): a completed message is interpreted at once. -/
def rxComplete (r : State × Option Message) : State :=
  match r.2 with
  | none => answer (.rx none false) r.1
  | some m => answer (.rx (some m) (interpret m r.1).2) (interpret m r.1).1

/-- `RX_BYTE(b)` (R145). -/
def rxByte (b : Byte) (s : State) : Result :=
  match feed b s with
  | .next r => .next (rxComplete r)
  | .fault f => .fault f
  | .refused r => .refused r

/-- Bytes on the UART receive side: one `RX_BYTE` for each, in arrival order (R63, R73), whatever
`rx_state` is. From `Idle` the bytes of a frame are that frame; after a fragment they continue it
(R283); while draining they are discarded up to the terminator (R144). -/
def receive : List Byte → State → Result
  | [], s => .next s
  | b :: bs, s =>
    match rxByte b s with
    | .next t => receive bs t
    | .fault f => .fault f
    | .refused r => .refused r

end Sys2Proof.Machine
end

