-- ==== Sys2Proof/Machine/Frames.lean ====
section
/-! DEFINITION. The meanings of the seven inbound frames and of the nibble character. A frame is
received: its tag, its payload and its terminator go through `RX_BYTE` one after another (R90, R145),
and from `Idle` the handler of its type (R191 to R197) runs at the terminator. Log entry 1. -/

namespace Sys2Proof.Machine

/-- `VERSION` (R191): the bytes of a frame with tag `'v'`. -/
def execVersion (p : List Byte) (s : State) : Result :=
  configured s (receive (frameBytes 0x76#8 p) s)

/-- `KEYPRESS` (R195): the bytes of a frame with tag `'k'`. -/
def execKeypress (p : List Byte) (s : State) : Result :=
  configured s (receive (frameBytes 0x6B#8 p) s)

/-- `POSROT` (R196): the bytes of a frame with tag `'d'`. -/
def execPosrot (p : List Byte) (s : State) : Result :=
  configured s (receive (frameBytes 0x64#8 p) s)

/-- `MODE` (R192): the bytes of a frame with tag `'m'`. -/
def execMode (p : List Byte) (s : State) : Result :=
  configured s (receive (frameBytes 0x6D#8 p) s)

/-- `ZERO` (R194): the bytes of a frame with tag `'z'`. -/
def execZero (p : List Byte) (s : State) : Result :=
  configured s (receive (frameBytes 0x7A#8 p) s)

/-- `SENS` (R193): the bytes of a frame with tag `'q'`. -/
def execSens (p : List Byte) (s : State) : Result :=
  configured s (receive (frameBytes 0x71#8 p) s)

/-- `UNKNOWN` (R197): the bytes of a frame with any other tag. -/
def execUnknown (bytes : List Byte) (s : State) : Result :=
  configured s (receive (bytes ++ [terminator]) s)

/-- `NIBBLE` (R130): pure; the value is what it returns. -/
def execNibble (c : Byte) (s : State) : Result :=
  configured s (.next (answer (.nibble (decodeNibble s.cfg c)) s))

end Sys2Proof.Machine
end

