-- ==== Sys2Proof/Machine/Scheduler.lean ====
section
/-! DEFINITION. HIDReportScheduler (45_hid_report_scheduler.md): the state steps of `HID_TICK` and
the LED drain. -/

namespace Sys2Proof.Machine

/-- The 6 data bytes of an axis report (R102, R103), and free values from draw `k` on where
`phys_map` is unspecified. -/
def axisReportData (k : Nat) (a b c : Norm) : List Byte :=
  le16 (physField k a) ++ le16 (physField (k + 1) b) ++ le16 (physField (k + 2) c)

/-- Report 1 (R102). -/
def translationReport (s : State) : Report :=
  ⟨reportIdTranslation, axisReportData s.draws s.submit.axes.x s.submit.axes.y s.submit.axes.z⟩

/-- Report 2 (R103): in the order u, v, w. -/
def rotationReport (s : State) : Report :=
  ⟨reportIdRotation, axisReportData s.draws s.submit.axes.u s.submit.axes.v s.submit.axes.w⟩

/-- Report 3 (R104). -/
def buttonsReport (s : State) : Report :=
  ⟨reportIdButtons, packButtons s.cfg.buttonCount s.submit.buttons⟩

/-- A gated send (R233, R234, R235): nothing while the interval has not elapsed; else the report,
the send time, `after` the next state, `drawn` more free values used up. -/
def sendStep (r : Report) (after : HidState) (drawn : Nat) (now : Time) (s : State) :
    State × Option Report :=
  if intervalElapsed now s then
    ({ usbSend r s with lastSendTime := now, hidState := after, draws := s.draws + drawn }, some r)
  else (s, none)

/-- Step `Idle` (R232): dirty detection and latch; not rate-gated, sends nothing. -/
def stepIdle (s : State) : State × Option Report :=
  if live s = s.submit then (s, none)
  else ({ s with submit := live s, hidState := .sendTranslation }, none)

/-- Step `SendTranslation` (R233). -/
def stepSendTranslation (now : Time) (s : State) : State × Option Report :=
  sendStep (translationReport s) .sendRotation 3 now s

/-- Step `SendRotation` (R234). -/
def stepSendRotation (now : Time) (s : State) : State × Option Report :=
  sendStep (rotationReport s) .sendButtons 3 now s

/-- Step `SendButtons` (R235). -/
def stepSendButtons (now : Time) (s : State) : State × Option Report :=
  sendStep (buttonsReport s) .idle 0 now s

/-- The one state step of a tick, by `hid_state` at entry (R231). With four values there is no
unrecognized state (R236). -/
def hidStep (now : Time) (s : State) : State × Option Report :=
  match s.hidState with
  | .idle => stepIdle s
  | .sendTranslation => stepSendTranslation now s
  | .sendRotation => stepSendRotation now s
  | .sendButtons => stepSendButtons now s

/-- An LED report's second byte (R238): 0 and 1 set `led`; any other leaves a free bit (U5). -/
def setLed (l : Byte) (s : State) : State :=
  if l = 0#8 then { s with led := false }
  else if l = 1#8 then { s with led := true }
  else { s with led := Config.freeBit s.draws, draws := s.draws + 1 }

/-- `led_drain()` (R238) with what `usb_recv` returned: a report that is no LED report is consumed
and has no effect (R111). -/
def ledDrain (inbound : Option (List Byte)) (s : State) : State :=
  match inbound with
  | some [id, l] => if id = reportIdLed then setLed l s else s
  | some _ => s
  | none => s

/-- `HID_TICK(now; inbound)` (R231): one state step, then the LED drain. -/
def hidTick (now : Time) (inbound : Option (List Byte)) (s : State) : State × Option Report :=
  (ledDrain inbound (hidStep now s).1, (hidStep now s).2)

/-- The state step at `now`, if `hid_state` selects the step of `want`; else nothing. -/
def sendOf (want : HidState) (now : Time) (s : State) : State × Option Report :=
  if s.hidState = want then hidStep now s else (s, none)

/-- The outcome of a reporting operation: the state, the sent report recorded. -/
def reported (r : State × Option Report) : Result := .next (answer (.report r.2) r.1)

end Sys2Proof.Machine
end

