-- ==== Sys2Proof/Machine/Operations.lean ====
section
/-! DEFINITION. The meanings of the five operations (R7), and the canonical poll loop (R266). -/

namespace Sys2Proof.Machine

/-- `RX_BYTE(b)` (R145). -/
def execRxByte (b : Byte) (s : State) : Result :=
  configured s (rxByte b s)

/-- `INIT_TICK(now)` (R172). -/
def execInitTick (now : Time) (s : State) : Result :=
  configured s (transmitted (initTick now s))

/-- `HID_TICK(now; inbound)` (R231). -/
def execHidTick (now : Time) (inbound : Option (List Byte)) (s : State) : Result :=
  configured s (reported (hidTick now inbound s))

/-- What `SOFT_RESET` writes (R260): MotionState, `mode`, `init_state` and the sequencer's timers. -/
def softReset (s : State) : State :=
  { s with
    initState := .reset
    raw := Axes.all 0#16
    buttons := 0#16
    sensT := 0#4
    sensR := 0#4
    mode := 0#4
    gateStart := 0#32
    gateLen := 0
    lastResetTime := 0#32 }

/-- `SOFT_RESET()` (R260). -/
def execSoftReset (s : State) : Result :=
  configured s (.next (answer .unit (softReset s)))

/-- `BEEP()` (R261). -/
def execBeep (s : State) : Result :=
  configured s (transmitted (transmitBeep s))

/-- One iteration of the canonical loop (R266) as the requests it presents: `SOFT_RESET` and `BEEP`
when asked for, `RX_BYTE` when a byte is available, `INIT_TICK`, `HID_TICK`. A convenience: the
schedule may hold any other order (R264). -/
def pollIteration (resetAsked beepAsked : Bool) (rx : Option Byte) (now : Time)
    (inbound : Option (List Byte)) : List Request :=
  (if resetAsked then [.softReset] else []) ++ (if beepAsked then [.beep] else []) ++
  (match rx with | some b => [.rxByte b] | none => []) ++
  [.initTick now, .hidTick now inbound]

end Sys2Proof.Machine
end

