-- ==== Sys2Proof/Machine/Reports.lean ====
section
/-! DEFINITION. The meanings of the four USB reports. An outbound report's meaning is the state step
that sends it (R233, R234, R235), when `hid_state` selects that step; the LED report's is the tick
of the scheduler whose LED drain takes it (R231, R238). Log entry 1. -/

namespace Sys2Proof.Machine

/-- `REPORT_TRANSLATION` (R233). -/
def execReportTranslation (now : Time) (s : State) : Result :=
  configured s (reported (sendOf .sendTranslation now s))

/-- `REPORT_ROTATION` (R234). -/
def execReportRotation (now : Time) (s : State) : Result :=
  configured s (reported (sendOf .sendRotation now s))

/-- `REPORT_BUTTONS` (R235). -/
def execReportButtons (now : Time) (s : State) : Result :=
  configured s (reported (sendOf .sendButtons now s))

/-- `REPORT_LED` (R238). -/
def execReportLed (l : LedReport) (s : State) : Result :=
  configured s (reported (hidTick l.now (some [reportIdLed, l.value]) s))

end Sys2Proof.Machine
end

