-- ==== Sys2Proof/Machine/Dispatch.lean ====
section
/-! DEFINITION. One arm per instruction. -/

namespace Sys2Proof.Machine

def exec (i : Instr) (s : State) : Host.Outcome State Fault Refusal :=
  match i with
  | .version p => Sys2Proof.Machine.execVersion p s
  | .keypress p => Sys2Proof.Machine.execKeypress p s
  | .posrot p => Sys2Proof.Machine.execPosrot p s
  | .mode p => Sys2Proof.Machine.execMode p s
  | .zero p => Sys2Proof.Machine.execZero p s
  | .sens p => Sys2Proof.Machine.execSens p s
  | .unknown _ p => Sys2Proof.Machine.execUnknown p s
  | .nibble c => Sys2Proof.Machine.execNibble c s
  | .cmdReset now => Sys2Proof.Machine.execCmdReset now s
  | .cmdGetVersion now => Sys2Proof.Machine.execCmdGetVersion now s
  | .cmdButtonReporting now => Sys2Proof.Machine.execCmdButtonReporting now s
  | .cmdSetMode now => Sys2Proof.Machine.execCmdSetMode now s
  | .cmdZero now => Sys2Proof.Machine.execCmdZero now s
  | .cmdBeep => Sys2Proof.Machine.execCmdBeep s
  | .reportTranslation now => Sys2Proof.Machine.execReportTranslation now s
  | .reportRotation now => Sys2Proof.Machine.execReportRotation now s
  | .reportButtons now => Sys2Proof.Machine.execReportButtons now s
  | .reportLed l => Sys2Proof.Machine.execReportLed l s
  | .rxByte b => Sys2Proof.Machine.execRxByte b s
  | .initTick now => Sys2Proof.Machine.execInitTick now s
  | .hidTick now inbound => Sys2Proof.Machine.execHidTick now inbound s
  | .softReset => Sys2Proof.Machine.execSoftReset s
  | .beep => Sys2Proof.Machine.execBeep s

end Sys2Proof.Machine
end

