-- ==== Sys2Proof/Machine/Requests.lean ====
section
/-! DEFINITION. What happens with a request that is no instruction: every input has a defined next
state (R9), so the bytes are received, consumed or not sent, as the spec says of them. Log entry
12. -/

namespace Sys2Proof.Machine

/-- The effect of a request that is no instruction. Bytes on the UART receive side that are not one
whole frame are received like any others, so an unterminated frame stays in the framer (R283) and
bytes after a terminator begin the next frame (R73). A host report that is no LED report is consumed
by the tick it is offered to (R111, R238). Bytes that are none of the six commands are nothing the
block emits (R101), and no report it sends has an identifier other than 1, 2 and 3 (R69): nothing is
transmitted. The other requests always are instructions. -/
def execUndecoded (r : Request) (s : State) : Result :=
  configured s
    (match r with
     | .frame bytes => receive bytes s
     | .hostReport now bytes => reported (hidTick now (some bytes) s)
     | .command _ _ => .next (answer (.command none) s)
     | .sendReport _ _ => .next (answer (.report none) s)
     | .character _ => .next s
     | .rxByte _ => .next s
     | .initTick _ => .next s
     | .hidTick _ _ => .next s
     | .softReset => .next s
     | .beep => .next s)

end Sys2Proof.Machine
end

