-- ==== Sys2Proof/Machine/Step.lean ====
section
/-! DEFINITION. One step: the next request of the schedule, decoded and executed; what is no
instruction has the effect the spec gives its bytes. -/

namespace Sys2Proof.Machine

/-- One step. The block does nothing until the environment presents something (R9, R10), so an
empty schedule is an idle step; under an ill-formed configuration there is no step at all (R12). -/
def step (s : State) : Host.Outcome State Fault Refusal :=
  match s.schedule with
  | [] => configured s (.next s)
  | r :: rest =>
    match decode r with
    | .ok i => exec i { s with schedule := rest }
    | .error _ => execUndecoded r { s with schedule := rest }

/-- The state with a word of the opcode table as what the environment presents next. -/
def State.withFetchWord (s : State) (nbits w : Nat) : State :=
  { s with schedule := tableRequest nbits w :: s.schedule }

end Sys2Proof.Machine
end

