-- ==== Sys2Proof/Safety.lean ====
section
/-! DEFINITION. What counts as a safe state and a safe run: the invariants of R42 and what they
rest on, what an instruction hands to the interpreter, the order of the reports (R241). -/

namespace Sys2Proof.Machine

/-- The outcome is a next state: the block went on (R9). -/
def goesOn (r : Result) : Bool :=
  match r with
  | .next _ => true
  | .fault _ => false
  | .refused _ => false

/-- The next state, if the outcome is one. -/
def nextState (r : Result) : Option State :=
  match r with
  | .next s => some s
  | .fault _ => none
  | .refused _ => none

/-- The receive buffer: canonical, every index below `RX_CAPACITY`, the reserved slot holding
nothing but the 0x00 of string termination (R60). -/
abbrev BufferOk (s : State) : Prop :=
  Memory.wf s.rxBuf = true ∧
  (∀ c ∈ s.rxBuf, c.1 < s.cfg.rxCapacity) ∧
  (∀ c ∈ s.rxBuf, c.1 = s.cfg.rxCapacity - 1 → c.2 = 0#8)

/-- While a frame is read, every index below `rx_len` holds a payload byte, none of them 0x0D
(R60, R146). -/
abbrev PayloadOk (s : State) : Prop :=
  s.rxState = .readingMessage →
    ∀ i < s.rxLen, Memory.read s.rxBuf i ≠ terminator

/-- I1 (R42): `0 ≤ rx_len ≤ RX_CAPACITY − 1`; while draining, the buffer is full (R282). -/
abbrev LengthOk (s : State) : Prop :=
  s.rxLen ≤ s.cfg.rxCapacity - 1 ∧
  (s.rxState = .drainingOverflow → s.rxLen = s.cfg.rxCapacity - 1)

/-- I6 (R42) of one axis: −4096 to 4095. -/
abbrev AxisOk (r : I16) : Prop := -4096 ≤ r.toInt ∧ r.toInt ≤ 4095

/-- I6 (R42): every raw register. -/
abbrev RawOk (s : State) : Prop :=
  AxisOk s.raw.x ∧ AxisOk s.raw.y ∧ AxisOk s.raw.z ∧
  AxisOk s.raw.u ∧ AxisOk s.raw.v ∧ AxisOk s.raw.w

/-- No mask has a bit at `BUTTON_COUNT` or above (R29, R35). -/
abbrev MasksOk (s : State) : Prop :=
  cutMask s.cfg.buttonCount s.buttons = s.buttons ∧
  cutMask s.cfg.buttonCount s.submit.buttons = s.submit.buttons

/-- `gate_len` holds 0 or 500 (R20). -/
abbrev GateOk (s : State) : Prop := s.gateLen = 0 ∨ s.gateLen = 500

/-- The invariant of the block (R42) with the configuration of R12. -/
abbrev State.Inv (s : State) : Prop :=
  s.cfg.wellFormed = true ∧ BufferOk s ∧ PayloadOk s ∧ LengthOk s ∧ RawOk s ∧ MasksOk s ∧ GateOk s

/-- The identifier of the report at a position of the stream: 1, 2, 3, 1, 2, 3, ... (R241). -/
def reportIdAt (i : Nat) : Byte := BitVec.ofNat 8 (i % 3 + 1)

/-- How many reports of the current triple have been sent, by `hid_state` (R243). -/
def sentOfTriple : HidState → Nat
  | .idle => 0
  | .sendTranslation => 0
  | .sendRotation => 1
  | .sendButtons => 2

/-- R241: the identifiers read 1, 2, 3, 1, 2, 3, ..., starting with 1, and `hid_state` says where in
the triple the stream stands. -/
abbrev ReportOrder (s : State) : Prop :=
  s.usbTx.map Report.id = (List.range s.usbTx.length).map reportIdAt ∧
  s.usbTx.length % 3 = sentOfTriple s.hidState

/-- The binary32 bits of a value that a normalization can give (R214): +0.0, or a normal positive
number from 2^-15 to 2^12. -/
abbrev NormOk (v : Norm) : Prop := v = 0#32 ∨ (0x38000000 ≤ v.toNat ∧ v.toNat ≤ 0x45800000)

/-- The rational number a finite binary32 value stands for: sign, significand, exponent (R214). -/
def normValue (v : Norm) : ℚ :=
  (if normNegative v then -1 else 1) * (normSignificand v : ℚ) *
    (2 : ℚ) ^ ((max 1 (normExponent v) : Nat) - 150 : Int)

/-- R214: every axis of `submit` is a value a normalization can give. -/
abbrev SubmitOk (s : State) : Prop :=
  NormOk s.submit.axes.x ∧ NormOk s.submit.axes.y ∧ NormOk s.submit.axes.z ∧
  NormOk s.submit.axes.u ∧ NormOk s.submit.axes.v ∧ NormOk s.submit.axes.w

/-- The message of an inbound frame (R18, R91). -/
def frameMessage : Instr → Option Message
  | .version p => some ⟨.version, p⟩
  | .keypress p => some ⟨.keypress, p⟩
  | .posrot p => some ⟨.positionRotation, p⟩
  | .mode p => some ⟨.modeChange, p⟩
  | .zero p => some ⟨.zero, p⟩
  | .sens p => some ⟨.sensitivityChange, p⟩
  | .unknown _ bytes => some ⟨.unknown, bytes.tail⟩
  | _ => none

/-- The bytes an instruction takes from the UART receive side: none but for `RX_BYTE` and the inbound
frames (R90). -/
def receivedBytes : Instr → List Byte
  | .version p => frameBytes 0x76#8 p
  | .keypress p => frameBytes 0x6B#8 p
  | .posrot p => frameBytes 0x64#8 p
  | .mode p => frameBytes 0x6D#8 p
  | .zero p => frameBytes 0x7A#8 p
  | .sens p => frameBytes 0x71#8 p
  | .unknown _ bytes => bytes ++ [terminator]
  | .rxByte b => [b]
  | _ => []

/-- What the framer holds for a received payload (R60, R62): its bytes from index 0, the 0x00 after
them, and what it held before at every other index. -/
abbrev HoldsFrame (old buf : Memory) (p : List Byte) : Prop :=
  (∀ k, k < p.length → p[k]? = some (Memory.read buf k)) ∧
  Memory.read buf p.length = 0x00#8 ∧
  ∀ k, p.length < k → Memory.read buf k = Memory.read old k

/-- Among the bytes an instruction takes from the UART there is a terminator that completes the
message (R143, R145), `post` still to come. -/
def handsOver (i : Instr) (m : Message) (s : State) : Prop :=
  ∃ (pre post : List Byte) (t : State), receivedBytes i = pre ++ terminator :: post ∧
    receive pre s = .next t ∧ t.rxState = .readingMessage ∧
    m = ⟨t.rxType, Memory.readRange t.rxBuf t.rxLen⟩

/-- The time an instruction is presented with, if it takes one. -/
def instrTime : Instr → Option Time
  | .cmdReset now => some now
  | .cmdGetVersion now => some now
  | .cmdButtonReporting now => some now
  | .cmdSetMode now => some now
  | .cmdZero now => some now
  | .reportTranslation now => some now
  | .reportRotation now => some now
  | .reportButtons now => some now
  | .reportLed l => some l.now
  | .initTick now => some now
  | .hidTick now _ => some now
  | _ => none

/-- A run of `n` steps that never stops. -/
def safeRun : Nat → State → Bool
  | 0, _ => true
  | n + 1, s =>
    match step s with
    | .next t => safeRun n t
    | .fault _ => false
    | .refused _ => false

/-- The state after running a list of instructions, if none of them stops. -/
def runAll : List Instr → State → Result
  | [], s => .next s
  | i :: is, s =>
    match exec i s with
    | .next t => runAll is t
    | .fault f => .fault f
    | .refused r => .refused r

end Sys2Proof.Machine
end

