-- ==== Sys2Proof/Certificates/Slice0/Obligations.lean ====
section
/-! DEFINITION. The statements for the provers. Each says what the rule of spec/ it names says, over
every state and every well-formed configuration. -/

open Sys2Proof Sys2Proof.Machine

/-! ### Encoding -/

/-- 30_encoding.md: no bit of an encoding is lost. -/
def Obligations.EncodedInstructionDecodes : Prop :=
  ∀ i : Instr, i.wellFormed = true → decode (encode i) = .ok i

/-- 30_encoding.md: two requests never decode to one instruction, except that the beep command takes
no time (R261). -/
def Obligations.DecodedRequestIsItsEncoding : Prop :=
  ∀ (r : Request) (i : Instr), decode r = .ok i →
    encode i = r ∨ (i = .cmdBeep ∧ ∃ now, r = .command now bytesCmdBeep)

/-- Words written out from R91, R101, R69, R105. MODEL'S CHOICE: that a command and a report stand in
a request with a time (log entry 1), and how a word of the opcode table is read, at time 0 (log entry
3). -/
def Obligations.WrittenOutWordsDecode : Prop :=
  decode (.frame [0x6B#8, 0x41#8, 0x30#8, 0x42#8, 0x0D#8]) =
    .ok (.keypress [0x41#8, 0x30#8, 0x42#8]) ∧
  decode (.frame [0x0D#8, 0x7A#8, 0x0D#8]) =
    .ok (.unknown 0x0D#8 [0x0D#8, 0x7A#8]) ∧
  decode (.command 7#32 [0x0D#8, 0x76#8, 0x74#8, 0x0D#8]) = .ok (.cmdReset 7#32) ∧
  decode (.sendReport 9#32 2#8) = .ok (.reportRotation 9#32) ∧
  decode (.hostReport 9#32 [0x04#8, 0x01#8]) = .ok (.reportLed ⟨9#32, 1#8⟩) ∧
  decodeTableWord 24 0x6D330D = some (.cmdSetMode 0#32)

/-- R141: the six tags by exact comparison, every other byte `Unknown`. -/
def Obligations.TagSelectsMessageType : Prop :=
  classify 0x76#8 = .version ∧ classify 0x6B#8 = .keypress ∧
  classify 0x64#8 = .positionRotation ∧ classify 0x6D#8 = .modeChange ∧
  classify 0x7A#8 = .zero ∧ classify 0x71#8 = .sensitivityChange ∧
  ∀ b, b ∉ [0x76#8, 0x6B#8, 0x64#8, 0x6D#8, 0x7A#8, 0x71#8] → classify b = .unknown

/-- A step runs the decoded instruction on the state without its request. What is no instruction has
the effect its bytes have: UART bytes that are not one whole frame are received one by one (R145), a
host report that is no LED report is consumed by the tick it is offered to (R111), and nothing is
transmitted for bytes that are no command of R101 and for an identifier that is no report's. With
nothing presented the block stays as it is. MODEL'S CHOICE: the schedule (log entry 10) and that such
requests can be presented (log entry 12). -/
def Obligations.StepRunsTheDecodedInstruction : Prop :=
  (∀ (s : State) (r : Request) (rest : List Request) (i : Instr),
    s.schedule = r :: rest → decode r = .ok i → step s = exec i { s with schedule := rest }) ∧
  (∀ (s : State) (r : Request) (rest : List Request) (e : DecodeError), s.cfg.wellFormed = true →
    s.schedule = r :: rest → decode r = .error e →
    (∀ bytes, r = .frame bytes →
      step s = runAll (bytes.map .rxByte) { s with schedule := rest }) ∧
    (∀ now bytes, r = .hostReport now bytes →
      step s = exec (.hidTick now (some bytes)) { s with schedule := rest }) ∧
    (∀ now bytes, r = .command now bytes →
      step s = .next { s with schedule := rest, ret := .command none }) ∧
    (∀ now id, r = .sendReport now id →
      step s = .next { s with schedule := rest, ret := .report none })) ∧
  (∀ s : State, s.cfg.wellFormed = true → s.schedule = [] → step s = .next s)

/-! ### The configuration -/

/-- R12: what a well-formed configuration is, and that every instruction and every step refuses
another. -/
def Obligations.IllFormedConfigurationIsRefused : Prop :=
  (∀ c : Config, c.wellFormed = true ↔
    25 ≤ c.rxCapacity ∧
    (c.versionMagic ≠ [] ∧ (0x0D#8 : Byte) ∉ c.versionMagic ∧
      c.versionMagic.length ≤ c.rxCapacity - 1) ∧
    (c.nibbleAlphabet.length = 16 ∧ c.nibbleAlphabet.Nodup ∧
      c.nibbleAlphabet[0]? = some 0x30#8 ∧ c.nibbleAlphabet[1]? = some 0x41#8 ∧
      c.nibbleAlphabet[2]? = some 0x42#8 ∧ c.nibbleAlphabet[3]? = some 0x33#8 ∧
      c.nibbleAlphabet[15]? = some 0x3F#8) ∧
    (9 ≤ c.buttonCount ∧ c.buttonCount ≤ 16) ∧
    ∀ a : Axis, (c.cal.get a).min.toInt < 0 ∧ 0 < (c.cal.get a).max.toInt) ∧
  ∀ s : State, s.cfg.wellFormed = false →
    (∀ i : Instr, exec i s = .refused .illFormedConfig) ∧ step s = .refused .illFormedConfig

/-- R39: no operation changes a parameter; nor does one change what the environment presents. -/
def Obligations.ConfigurationIsNeverWritten : Prop :=
  ∀ (i : Instr) (s t : State), exec i s = .next t → t.cfg = s.cfg ∧ t.schedule = s.schedule

/-! ### NibbleCodec -/

/-- R130: the sixteen symbols give their values, every other byte 0, and nothing else changes. -/
def Obligations.NibbleCharacterDecodes : Prop :=
  ∀ (s : State) (c : Byte), s.cfg.wellFormed = true →
    exec (.nibble c) s = .next { s with ret := .nibble (decodeNibble s.cfg c) } ∧
    (∀ k, s.cfg.nibbleAlphabet[k]? = some c → (decodeNibble s.cfg c).toNat = k) ∧
    (c ∉ s.cfg.nibbleAlphabet → decodeNibble s.cfg c = 0#4)

/-- R132: the arithmetic law of the signed word, its range, its 13-bit form, and the round trip with
the test bench's encoder, which R132 marks as its inference. -/
def Obligations.SignedWordLaw : Prop :=
  ∀ cfg : Config,
    (∀ c0 c1 c2 c3 : Byte,
      let m := (decodeNibble cfg c1).toNat * 256 + (decodeNibble cfg c2).toNat * 16 +
        (decodeNibble cfg c3).toNat
      let sign : Int := if (decodeNibble cfg c0).getLsbD 3 then 1 else 0
      let v := (decodeSignedWord cfg c0 c1 c2 c3).toInt
      v = (m : Int) - 4096 * (1 - sign) ∧ -4096 ≤ v ∧ v ≤ 4095 ∧
      (BitVec.ofNat 13 ((1 - sign).toNat * 4096 + m)).toInt = v) ∧
    (cfg.wellFormed = true → ∀ v : Int, -4096 ≤ v → v ≤ 4095 →
      (wordAt cfg (encWord cfg v) 0).toInt = v)

/-! ### The inbound frames -/

/-- R195: a keypress frame received from `Idle` makes `buttons` the 12-bit bitmap cut to
`BUTTON_COUNT` bits; a payload of another length writes no register but the framer's. -/
def Obligations.KeypressSetsTheButtonMask : Prop :=
  ∀ (s : State) (p : List Byte), s.cfg.wellFormed = true → s.rxState = .idle →
    (0x0D#8 : Byte) ∉ p →
    (∀ c0 c1 c2, p = [c0, c1, c2] → ∃ buf, HoldsFrame s.rxBuf buf p ∧
      exec (.keypress p) s = .next { s with
        rxType := .keypress, rxLen := 3, rxBuf := buf
        buttons := BitVec.ofNat 16 (((decodeNibble s.cfg c2).toNat * 256 +
          (decodeNibble s.cfg c1).toNat * 16 + (decodeNibble s.cfg c0).toNat) %
            2 ^ s.cfg.buttonCount)
        ret := .rx (some ⟨.keypress, p⟩) true }) ∧
    (p.length ≠ 3 → ∃ n buf dg m, (∀ k, p.length < k → Memory.read buf k = Memory.read s.rxBuf k) ∧
      exec (.keypress p) s = .next { s with
        rxType := .keypress, rxLen := n, rxBuf := buf, diag := dg, ret := .rx m false })

/-- R196: a position frame received from `Idle` writes the six signed words to x, z, y, v, w, u in
payload order; a payload of another length writes no register but the framer's. -/
def Obligations.PositionRotationSetsSixAxes : Prop :=
  ∀ (s : State) (p : List Byte), s.cfg.wellFormed = true → s.rxState = .idle →
    (0x0D#8 : Byte) ∉ p →
    (∀ x z y v w u : List Byte, x.length = 4 → z.length = 4 → y.length = 4 → v.length = 4 →
      w.length = 4 → u.length = 4 → p = x ++ z ++ y ++ v ++ w ++ u →
      ∃ buf, HoldsFrame s.rxBuf buf p ∧
      exec (.posrot p) s = .next { s with
        rxType := .positionRotation, rxLen := 24, rxBuf := buf
        raw := { x := wordAt s.cfg x 0, y := wordAt s.cfg y 0, z := wordAt s.cfg z 0,
                 u := wordAt s.cfg u 0, v := wordAt s.cfg v 0, w := wordAt s.cfg w 0 }
        ret := .rx (some ⟨.positionRotation, p⟩) true }) ∧
    (p.length ≠ 24 → ∃ n buf dg m,
      (∀ k, p.length < k → Memory.read buf k = Memory.read s.rxBuf k) ∧
      exec (.posrot p) s = .next { s with
        rxType := .positionRotation, rxLen := n, rxBuf := buf, diag := dg, ret := .rx m false })

/-- R192: a mode frame received from `Idle` stores the reported mode; `EXPECTED_MODE` in
`WaitSetMode` advances the handshake. -/
def Obligations.ModeReportIsStored : Prop :=
  ∀ (s : State) (p : List Byte), s.cfg.wellFormed = true → s.rxState = .idle →
    (0x0D#8 : Byte) ∉ p →
    (∀ c, p = [c] → ∃ buf, HoldsFrame s.rxBuf buf p ∧
      (s.initState = .waitSetMode → decodeNibble s.cfg c = 3#4 →
        exec (.mode p) s = .next { s with
          rxType := .modeChange, rxLen := 1, rxBuf := buf, mode := 3#4, initState := .requestZero
          ret := .rx (some ⟨.modeChange, p⟩) true }) ∧
      (¬(s.initState = .waitSetMode ∧ decodeNibble s.cfg c = 3#4) →
        exec (.mode p) s = .next { s with
          rxType := .modeChange, rxLen := 1, rxBuf := buf, mode := decodeNibble s.cfg c
          ret := .rx (some ⟨.modeChange, p⟩) true })) ∧
    (p.length ≠ 1 → ∃ n buf dg m, (∀ k, p.length < k → Memory.read buf k = Memory.read s.rxBuf k) ∧
      exec (.mode p) s = .next { s with
        rxType := .modeChange, rxLen := n, rxBuf := buf, diag := dg, ret := .rx m false })

/-- R193: a sensitivity frame received from `Idle` stores translation first, rotation second, as
decoded; another length writes no register but the framer's. -/
def Obligations.SensitivityIsStored : Prop :=
  ∀ (s : State) (p : List Byte), s.cfg.wellFormed = true → s.rxState = .idle →
    (0x0D#8 : Byte) ∉ p →
    (∀ t r, p = [t, r] → ∃ buf, HoldsFrame s.rxBuf buf p ∧
      exec (.sens p) s = .next { s with
        rxType := .sensitivityChange, rxLen := 2, rxBuf := buf
        sensT := decodeNibble s.cfg t, sensR := decodeNibble s.cfg r
        ret := .rx (some ⟨.sensitivityChange, p⟩) true }) ∧
    (p.length ≠ 2 → ∃ n buf dg m, (∀ k, p.length < k → Memory.read buf k = Memory.read s.rxBuf k) ∧
      exec (.sens p) s = .next { s with
        rxType := .sensitivityChange, rxLen := n, rxBuf := buf, diag := dg, ret := .rx m false })

/-- R194: any Zero frame that fits, received from `Idle`, finishes the handshake in `WaitZero`, and in
any other `init_state` changes nothing but the framer. -/
def Obligations.ZeroFrameAcknowledges : Prop :=
  ∀ (s : State) (p : List Byte), s.cfg.wellFormed = true → s.rxState = .idle →
    (0x0D#8 : Byte) ∉ p → p.length ≤ s.cfg.rxCapacity - 1 →
    ∃ buf, HoldsFrame s.rxBuf buf p ∧
      (s.initState = .waitZero → exec (.zero p) s = .next { s with
        rxType := .zero, rxLen := p.length, rxBuf := buf, initState := .done
        ret := .rx (some ⟨.zero, p⟩) true }) ∧
      (s.initState ≠ .waitZero → exec (.zero p) s = .next { s with
        rxType := .zero, rxLen := p.length, rxBuf := buf, ret := .rx (some ⟨.zero, p⟩) false })

/-- R191 and R200: a Version frame that fits, received from `Idle`, and contains the magic, at any
offset, byte for byte, advances `WaitVersion`; elsewhere it changes nothing but the framer; without
the magic it is only logged. -/
def Obligations.VersionFrameAcknowledges : Prop :=
  ∀ (s : State) (p : List Byte), s.cfg.wellFormed = true → s.rxState = .idle →
    (0x0D#8 : Byte) ∉ p → p.length ≤ s.cfg.rxCapacity - 1 →
    let hasMagic := ∃ i, i + s.cfg.versionMagic.length ≤ p.length ∧
      ∀ j, j < s.cfg.versionMagic.length → p[i + j]? = s.cfg.versionMagic[j]?
    ∃ buf, HoldsFrame s.rxBuf buf p ∧
      (hasMagic → s.initState = .waitVersion → exec (.version p) s = .next { s with
        rxType := .version, rxLen := p.length, rxBuf := buf
        initState := .requestButtonReporting, ret := .rx (some ⟨.version, p⟩) true }) ∧
      (hasMagic → s.initState ≠ .waitVersion → exec (.version p) s = .next { s with
        rxType := .version, rxLen := p.length, rxBuf := buf
        ret := .rx (some ⟨.version, p⟩) false }) ∧
      (¬hasMagic → exec (.version p) s = .next { s with
        rxType := .version, rxLen := p.length, rxBuf := buf
        diag := s.diag ++ [.versionMismatch], ret := .rx (some ⟨.version, p⟩) false })

/-- R197: an Unknown frame received from `Idle` changes nothing but the framer. -/
def Obligations.UnknownFrameIsIgnored : Prop :=
  ∀ (s : State) (tag : Byte) (p : List Byte), s.cfg.wellFormed = true → s.rxState = .idle →
    classify tag = .unknown → (0x0D#8 : Byte) ∉ p → p.length ≤ s.cfg.rxCapacity - 1 →
    ∃ buf, HoldsFrame s.rxBuf buf p ∧
      exec (.unknown tag (tag :: p)) s = .next { s with
        rxType := .unknown, rxLen := p.length, rxBuf := buf
        ret := .rx (some ⟨.unknown, p⟩) false }

/-- R198 with R284: a length-checked frame of another length, received from `Idle`, writes no
register but the framer's. MODEL'S CHOICE (log entry 9): the event `MalformedPayload`, which R198
says "may be emitted", always is. -/
def Obligations.WrongLengthIsNoOp : Prop :=
  ∀ (i : Instr) (m : Message) (s : State) (n : Nat), s.cfg.wellFormed = true →
    s.rxState = .idle → i.wellFormed = true → frameMessage i = some m →
    requiredLength m.type = some n → m.length ≠ n → m.length ≤ s.cfg.rxCapacity - 1 →
    ∃ buf, HoldsFrame s.rxBuf buf m.payload ∧
      exec i s = .next { s with
        rxType := m.type, rxLen := m.length, rxBuf := buf
        diag := s.diag ++ [.malformedPayload], ret := .rx (some m) false }

/-- R109: a frame of more than `RX_CAPACITY − 1` payload bytes, received from `Idle`, is dropped
whole: no message, one `FrameOverflow`, and only its first `RX_CAPACITY − 1` payload bytes stored. -/
def Obligations.OverlongFrameIsDropped : Prop :=
  ∀ (i : Instr) (m : Message) (s : State), s.cfg.wellFormed = true → s.rxState = .idle →
    i.wellFormed = true → frameMessage i = some m → s.cfg.rxCapacity - 1 < m.length →
    ∃ buf : Memory,
      (∀ k, k < s.cfg.rxCapacity - 1 → m.payload[k]? = some (Memory.read buf k)) ∧
      (∀ k, s.cfg.rxCapacity - 1 ≤ k → Memory.read buf k = Memory.read s.rxBuf k) ∧
      exec i s = .next { s with
        rxType := m.type, rxLen := s.cfg.rxCapacity - 1, rxBuf := buf
        diag := s.diag ++ [.frameOverflow], ret := .rx none false }

/-! ### INIT_TICK and the commands -/

/-- R162: the step `Reset`, by the tick and as the row of its command. -/
def Obligations.ResetStepSendsReset : Prop :=
  ∀ (s : State) (now : Time) (i : Instr), s.cfg.wellFormed = true → s.initState = .reset →
    (i = .initTick now ∨ i = .cmdReset now) →
    exec i s = .next { s with
      uartTx := s.uartTx ++ [0x0D#8, 0x76#8, 0x74#8, 0x0D#8]
      gateStart := now, gateLen := 500, lastResetTime := now
      initState := .requestVersion
      ret := .command (some [0x0D#8, 0x76#8, 0x74#8, 0x0D#8]) }

/-- R163: the step `RequestVersion`, when no stall preempts it: held back until the gate expires. -/
def Obligations.RequestVersionStep : Prop :=
  ∀ (s : State) (now : Time) (i : Instr), s.cfg.wellFormed = true →
    s.initState = .requestVersion → (now - s.lastResetTime).toNat ≤ 5000 →
    (i = .initTick now ∨ i = .cmdGetVersion now) →
    (s.gateLen ≤ (now - s.gateStart).toNat → exec i s = .next { s with
      uartTx := s.uartTx ++ [0x76#8, 0x51#8, 0x0D#8], initState := .waitVersion
      ret := .command (some [0x76#8, 0x51#8, 0x0D#8]) }) ∧
    ((now - s.gateStart).toNat < s.gateLen → exec i s = .next { s with ret := .command none })

/-- R165: the step `RequestButtonReporting`, when no stall preempts it. -/
def Obligations.RequestButtonReportingStep : Prop :=
  ∀ (s : State) (now : Time) (i : Instr), s.cfg.wellFormed = true →
    s.initState = .requestButtonReporting → (now - s.lastResetTime).toNat ≤ 5000 →
    (i = .initTick now ∨ i = .cmdButtonReporting now) →
    exec i s = .next { s with
      uartTx := s.uartTx ++ [0x6B#8, 0x51#8, 0x0D#8]
      gateStart := now, gateLen := 500, initState := .requestSetMode
      ret := .command (some [0x6B#8, 0x51#8, 0x0D#8]) }

/-- R166: the step `RequestSetMode`, when no stall preempts it: held back until the gate expires. -/
def Obligations.RequestSetModeStep : Prop :=
  ∀ (s : State) (now : Time) (i : Instr), s.cfg.wellFormed = true →
    s.initState = .requestSetMode → (now - s.lastResetTime).toNat ≤ 5000 →
    (i = .initTick now ∨ i = .cmdSetMode now) →
    (s.gateLen ≤ (now - s.gateStart).toNat → exec i s = .next { s with
      uartTx := s.uartTx ++ [0x6D#8, 0x33#8, 0x0D#8], initState := .waitSetMode
      ret := .command (some [0x6D#8, 0x33#8, 0x0D#8]) }) ∧
    ((now - s.gateStart).toNat < s.gateLen → exec i s = .next { s with ret := .command none })

/-- R168: the step `RequestZero`, when no stall preempts it. -/
def Obligations.RequestZeroStep : Prop :=
  ∀ (s : State) (now : Time) (i : Instr), s.cfg.wellFormed = true →
    s.initState = .requestZero → (now - s.lastResetTime).toNat ≤ 5000 →
    (i = .initTick now ∨ i = .cmdZero now) →
    exec i s = .next { s with
      uartTx := s.uartTx ++ [0x7A#8, 0x0D#8], initState := .waitZero
      ret := .command (some [0x7A#8, 0x0D#8]) }

/-- R164, R167, R169, R170: a tick in a Wait state that no stall preempts does nothing, and a tick
in `Done` never does anything. -/
def Obligations.WaitingTicksDoNothing : Prop :=
  ∀ (s : State) (now : Time), s.cfg.wellFormed = true →
    (s.initState = .done ∨ ((s.initState = .waitVersion ∨ s.initState = .waitSetMode ∨
      s.initState = .waitZero) ∧ (now - s.lastResetTime).toNat ≤ 5000)) →
    exec (.initTick now) s = .next { s with ret := .command none }

/-- R161 and R290: more than 5000 ms after the last Reset step, in any of the seven middle states,
the tick restarts the handshake and performs no part of the step it preempted. MODEL'S CHOICE (log
entry 1): the row of the reset command does what that tick does. -/
def Obligations.StallRestartsTheHandshake : Prop :=
  ∀ (s : State) (now : Time) (i : Instr), s.cfg.wellFormed = true →
    s.initState ≠ .reset → s.initState ≠ .done → 5000 < (now - s.lastResetTime).toNat →
    (i = .initTick now ∨ i = .cmdReset now) →
    exec i s = .next { s with
      diag := s.diag ++ [.handshakeStall]
      uartTx := s.uartTx ++ [0x0D#8, 0x76#8, 0x74#8, 0x0D#8]
      gateStart := now, gateLen := 500, lastResetTime := now
      initState := .requestVersion
      ret := .command (some [0x0D#8, 0x76#8, 0x74#8, 0x0D#8]) }

/-- MODEL'S CHOICE (log entry 1): the row of a handshake command whose step the tick at `now` does
not select transmits nothing and changes nothing. -/
def Obligations.UnselectedCommandDoesNothing : Prop :=
  ∀ (s : State) (now : Time) (i : Instr) (own : InitState), s.cfg.wellFormed = true →
    ((i = .cmdReset now ∧ own = .reset) ∨ (i = .cmdGetVersion now ∧ own = .requestVersion) ∨
      (i = .cmdButtonReporting now ∧ own = .requestButtonReporting) ∨
      (i = .cmdSetMode now ∧ own = .requestSetMode) ∨ (i = .cmdZero now ∧ own = .requestZero)) →
    ((own ≠ .reset ∧ s.initState ≠ .reset ∧ s.initState ≠ .done ∧
        5000 < (now - s.lastResetTime).toNat) ∨
      (s.initState ≠ own ∧ (s.initState = .reset ∨ s.initState = .done ∨
        (now - s.lastResetTime).toNat ≤ 5000))) →
    exec i s = .next { s with ret := .command none }

/-- R261: `BEEP` and the row of its command transmit 0x62 0x0D and change nothing else. -/
def Obligations.BeepTransmitsBeep : Prop :=
  ∀ (s : State) (i : Instr), s.cfg.wellFormed = true → (i = .beep ∨ i = .cmdBeep) →
    exec i s = .next { s with
      uartTx := s.uartTx ++ [0x62#8, 0x0D#8], ret := .command (some [0x62#8, 0x0D#8]) }

/-! ### HID_TICK and the reports -/

/-- R232: an `Idle` tick latches all seven fields when the live snapshot differs, and otherwise does
nothing; it sends nothing, and the interval does not matter. -/
def Obligations.IdleTickLatchesADirtySnapshot : Prop :=
  ∀ (s : State) (now : Time), s.cfg.wellFormed = true → s.hidState = .idle →
    let snap : Snapshot := ⟨⟨getNorm .x s, getNorm .y s, getNorm .z s, getNorm .u s, getNorm .v s,
      getNorm .w s⟩, s.buttons⟩
    (snap ≠ s.submit → exec (.hidTick now none) s = .next { s with
      submit := snap, hidState := .sendTranslation, ret := .report none }) ∧
    (snap = s.submit → exec (.hidTick now none) s = .next { s with ret := .report none })

/-- R233 with R102: at least 8 ms after the last send, report 1 carries x, y, z of `submit`, low
bytes first; earlier nothing happens. Where `phys_map` is unspecified (U6) the field is any
`int16`. -/
def Obligations.TranslationReportIsSent : Prop :=
  ∀ (s : State) (now : Time) (i : Instr), s.cfg.wellFormed = true →
    s.hidState = .sendTranslation → (i = .hidTick now none ∨ i = .reportTranslation now) →
    (8 ≤ (now - s.lastSendTime).toNat →
      ∃ (px py pz : I16) (k : Nat),
        (∀ q, physMap s.submit.axes.x = some q → px = q) ∧
        (∀ q, physMap s.submit.axes.y = some q → py = q) ∧
        (∀ q, physMap s.submit.axes.z = some q → pz = q) ∧
        let r : Report := ⟨1#8, [BitVec.ofNat 8 px.toNat, BitVec.ofNat 8 (px.toNat / 256),
          BitVec.ofNat 8 py.toNat, BitVec.ofNat 8 (py.toNat / 256),
          BitVec.ofNat 8 pz.toNat, BitVec.ofNat 8 (pz.toNat / 256)]⟩
        exec i s = .next { s with
          usbTx := s.usbTx ++ [r], lastSendTime := now, hidState := .sendRotation
          draws := k, ret := .report (some r) }) ∧
    ((now - s.lastSendTime).toNat < 8 → exec i s = .next { s with ret := .report none })

/-- R234 with R103: report 2, in the order u, v, w. -/
def Obligations.RotationReportIsSent : Prop :=
  ∀ (s : State) (now : Time) (i : Instr), s.cfg.wellFormed = true →
    s.hidState = .sendRotation → (i = .hidTick now none ∨ i = .reportRotation now) →
    (8 ≤ (now - s.lastSendTime).toNat →
      ∃ (pu pv pw : I16) (k : Nat),
        (∀ q, physMap s.submit.axes.u = some q → pu = q) ∧
        (∀ q, physMap s.submit.axes.v = some q → pv = q) ∧
        (∀ q, physMap s.submit.axes.w = some q → pw = q) ∧
        let r : Report := ⟨2#8, [BitVec.ofNat 8 pu.toNat, BitVec.ofNat 8 (pu.toNat / 256),
          BitVec.ofNat 8 pv.toNat, BitVec.ofNat 8 (pv.toNat / 256),
          BitVec.ofNat 8 pw.toNat, BitVec.ofNat 8 (pw.toNat / 256)]⟩
        exec i s = .next { s with
          usbTx := s.usbTx ++ [r], lastSendTime := now, hidState := .sendButtons
          draws := k, ret := .report (some r) }) ∧
    ((now - s.lastSendTime).toNat < 8 → exec i s = .next { s with ret := .report none })

/-- R235 with R104 and R239: report 3, two bytes, button `8j + b` at bit `b` of byte `j`, bits at
`BUTTON_COUNT` and above 0. -/
def Obligations.ButtonReportIsSent : Prop :=
  ∀ (s : State) (now : Time) (i : Instr), s.cfg.wellFormed = true →
    s.hidState = .sendButtons → (i = .hidTick now none ∨ i = .reportButtons now) →
    (8 ≤ (now - s.lastSendTime).toNat →
      ∃ b0 b1 : Byte,
        (∀ b, b < 8 → b0.getLsbD b =
          (decide (b < s.cfg.buttonCount) && s.submit.buttons.getLsbD b)) ∧
        (∀ b, b < 8 → b1.getLsbD b =
          (decide (8 + b < s.cfg.buttonCount) && s.submit.buttons.getLsbD (8 + b))) ∧
        exec i s = .next { s with
          usbTx := s.usbTx ++ [⟨3#8, [b0, b1]⟩], lastSendTime := now, hidState := .idle
          ret := .report (some ⟨3#8, [b0, b1]⟩) }) ∧
    ((now - s.lastSendTime).toNat < 8 → exec i s = .next { s with ret := .report none })

/-- MODEL'S CHOICE (log entry 1): the row of an outbound report in a `hid_state` that does not send
it changes nothing. -/
def Obligations.UnselectedReportDoesNothing : Prop :=
  ∀ (s : State) (now : Time), s.cfg.wellFormed = true →
    (s.hidState ≠ .sendTranslation →
      exec (.reportTranslation now) s = .next { s with ret := .report none }) ∧
    (s.hidState ≠ .sendRotation →
      exec (.reportRotation now) s = .next { s with ret := .report none }) ∧
    (s.hidState ≠ .sendButtons →
      exec (.reportButtons now) s = .next { s with ret := .report none })

/-- R231 and R238: what the LED drain adds to a tick of the scheduler. A second byte other than 0 and
1 leaves any bit (U5). MODEL'S CHOICE (log entry 1): the row of an LED report is the whole tick it is
offered to, so the second clause says the same of that row. -/
def Obligations.LedReportSetsTheFlag : Prop :=
  (∀ (s t : State) (now : Time), exec (.hidTick now none) s = .next t →
    exec (.hidTick now (some [4#8, 0#8])) s = .next { t with led := false } ∧
    exec (.hidTick now (some [4#8, 1#8])) s = .next { t with led := true } ∧
    (∀ l : Byte, l ≠ 0#8 → l ≠ 1#8 → ∃ b k,
      exec (.hidTick now (some [4#8, l])) s = .next { t with led := b, draws := k }) ∧
    (∀ r : List Byte, (r.length ≠ 2 ∨ r.head? ≠ some 4#8) →
      exec (.hidTick now (some r)) s = .next t)) ∧
  (∀ (s : State) (l : LedReport), s.cfg.wellFormed = true →
    ∃ t, exec (.hidTick l.now none) s = .next t ∧
      (l.value = 0#8 → exec (.reportLed l) s = .next { t with led := false }) ∧
      (l.value = 1#8 → exec (.reportLed l) s = .next { t with led := true }) ∧
      (l.value ≠ 0#8 → l.value ≠ 1#8 → ∃ b k,
        exec (.reportLed l) s = .next { t with led := b, draws := k }))

/-! ### RX_BYTE -/

/-- R142 and R148: in `Idle` every byte, the terminator included, is a tag. -/
def Obligations.IdleByteIsATag : Prop :=
  ∀ (s : State) (b : Byte), s.cfg.wellFormed = true → s.rxState = .idle →
    exec (.rxByte b) s = .next { s with
      rxType := classify b, rxLen := 0, rxState := .readingMessage, ret := .rx none false }

/-- R143: a payload byte is stored at `rx_len` and nowhere else; with the buffer full it is dropped
with its frame. -/
def Obligations.PayloadByteIsStored : Prop :=
  ∀ (s : State) (b : Byte), s.cfg.wellFormed = true → s.rxState = .readingMessage →
    b ≠ 0x0D#8 →
    (s.rxLen < s.cfg.rxCapacity - 1 → ∃ buf : Memory,
      exec (.rxByte b) s = .next { s with
        rxBuf := buf, rxLen := s.rxLen + 1, ret := .rx none false } ∧
      Memory.read buf s.rxLen = b ∧
      ∀ k, k ≠ s.rxLen → Memory.read buf k = Memory.read s.rxBuf k) ∧
    (s.cfg.rxCapacity - 1 ≤ s.rxLen →
      exec (.rxByte b) s = .next { s with
        rxState := .drainingOverflow, diag := s.diag ++ [.frameOverflow], ret := .rx none false })

/-- R143 and R145: the terminator, even with a full buffer, stores 0x00 at `rx_len` and nowhere
else, returns to `Idle`, and hands the payload received to the interpreter. -/
def Obligations.TerminatorCompletesTheFrame : Prop :=
  ∀ (s : State) (p : List Byte), s.cfg.wellFormed = true → s.rxState = .readingMessage →
    s.rxLen ≤ s.cfg.rxCapacity - 1 → p.length = s.rxLen →
    (∀ k, k < s.rxLen → p[k]? = some (Memory.read s.rxBuf k)) →
    ∃ buf : Memory,
      Memory.read buf s.rxLen = 0x00#8 ∧
      (∀ k, k ≠ s.rxLen → Memory.read buf k = Memory.read s.rxBuf k) ∧
      let m : Message := ⟨s.rxType, p⟩
      let t := interpret m { s with rxBuf := buf, rxState := .idle }
      exec (.rxByte 0x0D#8) s = .next { t.1 with ret := .rx (some m) t.2 }

/-- R144: while draining, bytes are discarded until the terminator. -/
def Obligations.DrainingDiscardsBytes : Prop :=
  ∀ (s : State) (b : Byte), s.cfg.wellFormed = true → s.rxState = .drainingOverflow →
    (b = 0x0D#8 →
      exec (.rxByte b) s = .next { s with rxState := .idle, ret := .rx none false }) ∧
    (b ≠ 0x0D#8 → exec (.rxByte b) s = .next { s with ret := .rx none false })

/-- R145, R73 and R283: a frame's instruction is its bytes received one by one, in every state. After
a fragment that leaves room the tag and the payload continue it, and the message is of the
fragment's type; without room the frame overflows; while draining the frame is discarded. In each
case the terminator leaves the framer in `Idle`. (A first byte 0x0D ends the fragment; the first
clause covers it.) MODEL'S CHOICE (log entry 1): a frame's row is `RX_BYTE` of each of its bytes,
whatever `rx_state` is. -/
def Obligations.FrameIsReceivedByteByByte : Prop :=
  (∀ (i : Instr) (s : State), frameMessage i ≠ none →
    exec i s = runAll ((receivedBytes i).map .rxByte) s) ∧
  (∀ (i : Instr) (s : State) (tag : Byte) (p : List Byte), s.cfg.wellFormed = true →
    frameMessage i ≠ none → receivedBytes i = tag :: (p ++ [0x0D#8]) → tag ≠ 0x0D#8 →
    (0x0D#8 : Byte) ∉ p →
    (s.rxState = .readingMessage → s.rxLen + (p.length + 1) ≤ s.cfg.rxCapacity - 1 →
      let m : Message := ⟨s.rxType, Memory.readRange s.rxBuf s.rxLen ++ tag :: p⟩
      ∃ buf, HoldsFrame s.rxBuf buf m.payload ∧
        let t := interpret m { s with rxBuf := buf, rxLen := m.length, rxState := .idle }
        exec i s = .next { t.1 with ret := .rx (some m) t.2 }) ∧
    (s.rxState = .readingMessage → s.rxLen ≤ s.cfg.rxCapacity - 1 →
      s.cfg.rxCapacity - 1 < s.rxLen + (p.length + 1) →
      ∃ buf, (∀ k, k < s.rxLen ∨ s.cfg.rxCapacity - 1 ≤ k →
          Memory.read buf k = Memory.read s.rxBuf k) ∧
        exec i s = .next { s with
          rxBuf := buf, rxLen := s.cfg.rxCapacity - 1, rxState := .idle
          diag := s.diag ++ [.frameOverflow], ret := .rx none false }) ∧
    (s.rxState = .drainingOverflow →
      exec i s = .next { s with rxState := .idle, ret := .rx none false }))

/-- R109, R143, R144: the bytes of an overlong frame leave no message and one `FrameOverflow`, and
the framer back in `Idle`; only `RX_CAPACITY − 1` of them were stored. -/
def Obligations.OverlongBytesAreDrained : Prop :=
  ∀ (s : State) (tag : Byte) (p : List Byte), s.cfg.wellFormed = true → s.rxState = .idle →
    (0x0D#8 : Byte) ∉ p → s.cfg.rxCapacity - 1 < p.length →
    ∃ buf : Memory,
      (∀ k, k < s.cfg.rxCapacity - 1 → p[k]? = some (Memory.read buf k)) ∧
      (∀ k, s.cfg.rxCapacity - 1 ≤ k → Memory.read buf k = Memory.read s.rxBuf k) ∧
      runAll ((tag :: (p ++ [0x0D#8])).map .rxByte) s = .next { s with
        rxBuf := buf, rxType := classify tag, rxLen := s.cfg.rxCapacity - 1
        diag := s.diag ++ [.frameOverflow], ret := .rx none false }

/-! ### SOFT_RESET and reset -/

/-- R260: what the external reset request writes, and that it writes nothing else. -/
def Obligations.SoftResetWritesTheEngine : Prop :=
  ∀ s : State, s.cfg.wellFormed = true →
    exec .softReset s = .next { s with
      initState := .reset, raw := ⟨0#16, 0#16, 0#16, 0#16, 0#16, 0#16⟩, buttons := 0#16
      sensT := 0#4, sensR := 0#4, mode := 0#4
      gateStart := 0#32, gateLen := 0, lastResetTime := 0#32, ret := .unit }

/-- R43 and R310: the registers after hard reset, for every configuration. -/
def Obligations.HardResetValues : Prop :=
  ∀ c : Config,
    let s := State.resetWith c
    s.cfg = c ∧ s.rxState = .idle ∧ s.rxType = .unknown ∧ s.rxLen = 0 ∧ s.initState = .reset ∧
    s.lastResetTime = 0#32 ∧ s.gateStart = 0#32 ∧ s.gateLen = 0 ∧
    (∀ now, gateExpired now s = true) ∧ (∀ a, s.raw.get a = 0#16) ∧ s.buttons = 0#16 ∧
    s.sensT = 0#4 ∧ s.sensR = 0#4 ∧ s.mode = 0#4 ∧ s.hidState = .idle ∧
    s.submit = ⟨⟨0#32, 0#32, 0#32, 0#32, 0#32, 0#32⟩, 0#16⟩ ∧ s.submit = live s ∧
    s.lastSendTime = 0#32 ∧ s.led = false ∧ s.uartTx = [] ∧ s.usbTx = []

/-- R311: out of reset the first tick sends the reset command, `ready()` is false, the scheduler
finds nothing to send, and the first byte is a tag. -/
def Obligations.FirstOperationsOutOfReset : Prop :=
  ∀ (c : Config) (now : Time) (b : Byte), c.wellFormed = true →
    let s := State.resetWith c
    ready s = false ∧
    (∃ t, exec (.initTick now) s = .next t ∧ t.uartTx = [0x0D#8, 0x76#8, 0x74#8, 0x0D#8] ∧
      t.initState = .requestVersion ∧ t.lastResetTime = now) ∧
    exec (.hidTick now none) s = .next { s with ret := .report none } ∧
    exec (.rxByte b) s = .next { s with
      rxType := classify b, rxState := .readingMessage, ret := .rx none false }

/-! ### Invariants -/

/-- The invariants hold after reset, for every well-formed configuration. -/
def Obligations.InvariantsHoldAtReset : Prop :=
  ∀ c : Config, c.wellFormed = true →
    (State.resetWith c).Inv ∧ ReportOrder (State.resetWith c) ∧ SubmitOk (State.resetWith c)

/-- R42 (I1, I6), R29, R60: every step keeps the invariant of the block. -/
def Obligations.StepKeepsTheInvariant : Prop :=
  ∀ s t : State, s.Inv → step s = .next t → t.Inv

/-- R9 and R280: from a state with the invariant no instruction faults or is refused, and no step
does, whatever is presented. -/
def Obligations.NothingStopsTheBlock : Prop :=
  ∀ s : State, s.Inv →
    (∀ i : Instr, ∃ t, exec i s = .next t) ∧ ∃ t, step s = .next t

/-- R25 and R173: every way `init_state` changes, row by row with its cause: the eight forward edges,
the stall restart, and the external request. Where a tick takes an edge the row of the command it
transmits takes it too: that is the MODEL'S CHOICE (log entry 1). -/
def Obligations.InitStateFollowsItsEdges : Prop :=
  ∀ (i : Instr) (s t : State), exec i s = .next t →
    let inTime (now : Time) : Prop := (now - s.lastResetTime).toNat ≤ 5000
    let gateOpen (now : Time) : Prop := s.gateLen ≤ (now - s.gateStart).toNat
    t.initState = s.initState ∨
    (s.initState = .reset ∧ t.initState = .requestVersion ∧
      ∃ now, i = .initTick now ∨ i = .cmdReset now) ∨
    (s.initState = .requestVersion ∧ t.initState = .waitVersion ∧
      ∃ now, (i = .initTick now ∨ i = .cmdGetVersion now) ∧ inTime now ∧ gateOpen now) ∨
    (s.initState = .waitVersion ∧ t.initState = .requestButtonReporting ∧
      ∃ m, handsOver i m s ∧ m.type = .version ∧
        containsBytes s.cfg.versionMagic m.payload = true) ∨
    (s.initState = .requestButtonReporting ∧ t.initState = .requestSetMode ∧
      ∃ now, (i = .initTick now ∨ i = .cmdButtonReporting now) ∧ inTime now) ∨
    (s.initState = .requestSetMode ∧ t.initState = .waitSetMode ∧
      ∃ now, (i = .initTick now ∨ i = .cmdSetMode now) ∧ inTime now ∧ gateOpen now) ∨
    (s.initState = .waitSetMode ∧ t.initState = .requestZero ∧
      ∃ m c, handsOver i m s ∧ m.type = .modeChange ∧ m.payload = [c] ∧
        decodeNibble s.cfg c = 3#4) ∨
    (s.initState = .requestZero ∧ t.initState = .waitZero ∧
      ∃ now, (i = .initTick now ∨ i = .cmdZero now) ∧ inTime now) ∨
    (s.initState = .waitZero ∧ t.initState = .done ∧ ∃ m, handsOver i m s ∧ m.type = .zero) ∨
    (s.initState ≠ .reset ∧ s.initState ≠ .done ∧ t.initState = .requestVersion ∧
      ∃ now, (i = .initTick now ∨ i = .cmdReset now) ∧ ¬inTime now) ∨
    (i = .softReset ∧ t.initState = .reset)

/-- R38: `ready()` becomes true only by a Zero message in `WaitZero` and false only by the external
reset request. -/
def Obligations.ReadyChangesOnlyByZeroAndReset : Prop :=
  ∀ (i : Instr) (s t : State), exec i s = .next t →
    (ready s = false → ready t = true →
      s.initState = .waitZero ∧ ∃ m, handsOver i m s ∧ m.type = .zero) ∧
    (ready s = true → ready t = false → i = .softReset)

/-- R241: every step keeps the report identifiers in the order 1, 2, 3, 1, 2, 3, ... -/
def Obligations.StepKeepsTheReportOrder : Prop :=
  ∀ s t : State, ReportOrder s → step s = .next t → ReportOrder t

/-- R237 and R241: an instruction sends at most one report, at least 8 ms after the last send, and
records the time of the send; only a send changes that record. -/
def Obligations.ReportsAreSpaced : Prop :=
  ∀ (i : Instr) (s t : State), exec i s = .next t →
    (t.usbTx = s.usbTx ∧ t.lastSendTime = s.lastSendTime) ∨
    (∃ now r, instrTime i = some now ∧ t.usbTx = s.usbTx ++ [r] ∧ t.lastSendTime = now ∧
      8 ≤ (now - s.lastSendTime).toNat)

/-- R240 and I4 of R42: while a triple is in flight `submit` is not written, and `hid_state` moves
only forward. -/
def Obligations.SnapshotIsHeldInFlight : Prop :=
  ∀ (i : Instr) (s t : State), exec i s = .next t →
    (s.hidState ≠ .idle → t.submit = s.submit) ∧
    (t.hidState = s.hidState ∨ (s.hidState = .idle ∧ t.hidState = .sendTranslation) ∨
      (s.hidState = .sendTranslation ∧ t.hidState = .sendRotation) ∨
      (s.hidState = .sendRotation ∧ t.hidState = .sendButtons) ∨
      (s.hidState = .sendButtons ∧ t.hidState = .idle)) ∧
    (t.submit ≠ s.submit → t.submit = live s ∧ t.hidState = .sendTranslation)

/-- R214: under the invariant every step keeps each axis of `submit` at +0.0 or a normal positive
binary32 value from 2^-15 to 2^12. MODEL'S CHOICE (log entry 4): the numerics are the default ones. -/
def Obligations.StepKeepsSubmitNormalized : Prop :=
  ∀ s t : State, s.Inv → SubmitOk s → step s = .next t → SubmitOk t

/-- R20, R45 and R77: what each instruction may write, every other field unchanged: the scheduler's
registers, the framer's and the interpreter's with received bytes, what the external request resets,
the sequencer's registers; a nibble and a beep write no register. -/
def Obligations.ComponentsKeepToTheirRegisters : Prop :=
  ∀ (i : Instr) (s t : State), exec i s = .next t →
    ((∃ now, i = .reportTranslation now ∨ i = .reportRotation now ∨ i = .reportButtons now ∨
        ∃ inbound, i = .hidTick now inbound) ∨ (∃ l, i = .reportLed l) →
      t = { s with hidState := t.hidState, submit := t.submit, lastSendTime := t.lastSendTime,
                   led := t.led, usbTx := t.usbTx, draws := t.draws, ret := t.ret }) ∧
    (frameMessage i ≠ none ∨ (∃ b, i = .rxByte b) →
      t = { s with rxState := t.rxState, rxType := t.rxType, rxLen := t.rxLen, rxBuf := t.rxBuf,
                   initState := t.initState, mode := t.mode, sensT := t.sensT, sensR := t.sensR,
                   buttons := t.buttons, raw := t.raw, diag := t.diag, ret := t.ret }) ∧
    (i = .softReset →
      t = { s with initState := t.initState, mode := t.mode, sensT := t.sensT, sensR := t.sensR,
                   buttons := t.buttons, raw := t.raw, lastResetTime := t.lastResetTime,
                   gateStart := t.gateStart, gateLen := t.gateLen, ret := t.ret }) ∧
    ((∃ now, i = .initTick now ∨ i = .cmdReset now ∨ i = .cmdGetVersion now ∨
        i = .cmdButtonReporting now ∨ i = .cmdSetMode now ∨ i = .cmdZero now) →
      t = { s with initState := t.initState, lastResetTime := t.lastResetTime,
                   gateStart := t.gateStart, gateLen := t.gateLen, uartTx := t.uartTx,
                   diag := t.diag, ret := t.ret }) ∧
    ((∃ c, i = .nibble c) → t = { s with ret := t.ret }) ∧
    (i = .beep ∨ i = .cmdBeep → t = { s with uartTx := t.uartTx, ret := t.ret })

/-- R60 and R61: only received bytes write the receive buffer; `RX_BYTE` writes at most the byte at
`rx_len`, while a message is read, and a frame, whose bytes it receives one by one, none at
`RX_CAPACITY` or above. -/
def Obligations.BufferIsWrittenOnlyAtItsEnd : Prop :=
  ∀ (i : Instr) (s t : State), exec i s = .next t →
    (receivedBytes i = [] → ∀ k, memRead k t = memRead k s) ∧
    (∀ b, i = .rxByte b →
      (s.rxState ≠ .readingMessage → ∀ k, memRead k t = memRead k s) ∧
      ∀ k, k ≠ s.rxLen → memRead k t = memRead k s) ∧
    ∀ k, s.cfg.rxCapacity ≤ k → Memory.read t.rxBuf k = Memory.read s.rxBuf k

/-! ### Numerics -/

/-- R218: the worked values under the default numerics (log entry 4). -/
def Obligations.WorkedNormalizations : Prop :=
  let c : Calibration := ⟨BitVec.ofInt 16 (-2000), BitVec.ofInt 16 3000⟩
  ∀ row ∈ ([(1500, 0x3F000000, 400, 0x90, 0x01), (-1000, 0x3F000000, 400, 0x90, 0x01),
      (0, 0x00000000, 0, 0x00, 0x00), (3000, 0x3F800000, 800, 0x20, 0x03),
      (1000, 0x3EAAAAAB, 266, 0x0A, 0x01), (795, 0x3E87AE14, 211, 0xD3, 0x00),
      (2999, 0x3F7FEA28, 799, 0x1F, 0x03), (4095, 0x3FAEB852, 1092, 0x44, 0x04),
      (-4096, 0x4003126F, 1638, 0x66, 0x06), (1, 0x39AEC33E, 0, 0x00, 0x00),
      (-2000, 0x3F800000, 800, 0x20, 0x03)] : List (Int × Nat × Int × Nat × Nat)),
    let v := normalize c (BitVec.ofInt 16 row.1)
    v = BitVec.ofNat 32 row.2.1 ∧ physMap v = some (BitVec.ofInt 16 row.2.2.1) ∧
    le16 (BitVec.ofInt 16 row.2.2.1) =
      [BitVec.ofNat 8 row.2.2.2.1, BitVec.ofNat 8 row.2.2.2.2]

/-- R212: a normalized value is never negative; it is at most 1 exactly when the raw value lies
within its calibration bounds; the largest that can occur is 4096, and it does. Positive binary32
numbers are ordered as their bits are. The numerics are the default ones (log entry 4). -/
def Obligations.NormalizedRange : Prop :=
  ∀ (c : Calibration) (r : I16), c.wellFormed = true →
    normNegative (normalize c r) = false ∧
    ((normalize c r).toNat ≤ 0x3F800000 ↔ c.min.toInt ≤ r.toInt ∧ r.toInt ≤ c.max.toInt) ∧
    (AxisOk r → (normalize c r).toNat ≤ 0x45800000) ∧
    normalize ⟨BitVec.ofInt 16 (-1), c.max⟩ (BitVec.ofInt 16 (-4096)) = 0x45800000#32

/-- R213: `NORM_ZERO` is given by a zero raw value and, an inference of R213 in the default numerics
(log entry 4), by no other. -/
def Obligations.NormZeroOnlyForZero : Prop :=
  ∀ (c : Calibration) (r : I16), c.wellFormed = true →
    (normalize c r = 0x00000000#32 ↔ r = 0#16)

/-- R214: `norm_div(n, d)` is the binary32 value nearest to `n / d`, ties to even: no finite
binary32 value is nearer, and where one is as near the result has an even last bit. A normalization
of a decoded raw value gives +0.0 or a normal positive number from 2^-15 to 2^12. MODEL'S CHOICE (log
entry 4): the numerics are the default ones. -/
def Obligations.QuotientIsNearest : Prop :=
  (∀ (c : Calibration) (r : I16), c.wellFormed = true → AxisOk r → NormOk (normalize c r)) ∧
  ∀ n d : I16, n ≠ 0#16 → d ≠ 0#16 →
    let q : ℚ := (n.toInt : ℚ) / (d.toInt : ℚ)
    let v := normDiv n d
    normExponent v ≠ 255 ∧
    ∀ w : Norm, normExponent w ≠ 255 →
      |normValue v - q| ≤ |normValue w - q| ∧
      (|normValue v - q| = |normValue w - q| → normValue w ≠ normValue v →
        v.getLsbD 0 = false)

/-- R217: for every value a normalization can give, `phys_map(v)` is the binary32 value nearest to
`800 v`, ties to even, truncated to an integer, exactly when that integer is an `int16`. MODEL'S
CHOICE (log entry 4): the numerics are the default ones. -/
def Obligations.PhysicalMapTruncatesTheProduct : Prop :=
  ∀ v : Norm, NormOk v →
    ∃ t : Norm, normExponent t ≠ 255 ∧ normNegative t = false ∧
      (∀ w : Norm, normExponent w ≠ 255 →
        |normValue t - 800 * normValue v| ≤ |normValue w - 800 * normValue v| ∧
        (|normValue t - 800 * normValue v| = |normValue w - 800 * normValue v| →
          normValue w ≠ normValue t → t.getLsbD 0 = false)) ∧
      ∀ p : I16, physMap v = some p ↔ p.toInt = ⌊normValue t⌋

/-- R219 (N3, N4, N5): zero maps to 0, a value at its calibration bound to 800, and the source's
worked values of R211. MODEL'S CHOICE (log entry 4): the numerics are the default ones. -/
def Obligations.AbstractNumericsProperties : Prop :=
  physMap normZero = some 0#16 ∧
  (∀ d : I16, d ≠ 0#16 → physMap (normDiv d d) = some 800#16) ∧
  normValue (normalize ⟨BitVec.ofInt 16 (-2000), BitVec.ofInt 16 3000⟩ 1500#16) = 1 / 2 ∧
  normValue (normalize ⟨BitVec.ofInt 16 (-2000), BitVec.ofInt 16 3000⟩ (BitVec.ofInt 16 (-1000))) =
    1 / 2 ∧
  normValue (normalize ⟨BitVec.ofInt 16 (-2000), BitVec.ofInt 16 3000⟩ 0#16) = 0

/-- R217: for a raw value the decoder can give, the physical value is unspecified only when the
calibration bound has magnitude 100 or less; where it is specified it is never negative. MODEL'S
CHOICE (log entry 4): the numerics are the default ones. -/
def Obligations.PhysicalValueIsInRange : Prop :=
  ∀ (c : Calibration) (r : I16), c.wellFormed = true → AxisOk r →
    (∀ p, physMap (normalize c r) = some p → 0 ≤ p.toInt) ∧
    (c.min.toInt < -100 → 100 < c.max.toInt → ∃ p, physMap (normalize c r) = some p)
end

