-- ==== Sys2Proof/Laws/Memory.lean ====
section
/-! SUPPORT. The receive buffer: read after write, and the canonical form every write keeps. -/

namespace Sys2Proof.Machine

theorem Memory.read_write_same (m : Memory) (a : Nat) (v : Byte) :
    Memory.read (Memory.write m a v) a = v := by
  induction m with
  | nil => simp [Memory.write, Memory.read]
  | cons c m ih =>
    obtain ⟨b, w⟩ := c
    unfold Memory.write
    split
    · simp [Memory.read]
    · split
      · simp [Memory.read]
      · next h => simpa [Memory.read, Ne.symm h] using ih

theorem Memory.read_write_other (m : Memory) (a k : Nat) (v : Byte) (h : k ≠ a) :
    Memory.read (Memory.write m a v) k = Memory.read m k := by
  induction m with
  | nil => simp [Memory.write, Memory.read, Ne.symm h]
  | cons c m ih =>
    obtain ⟨b, w⟩ := c
    unfold Memory.write
    split
    · simp [Memory.read, Ne.symm h]
    · split
      · next hab => subst hab; simp [Memory.read, Ne.symm h]
      · by_cases hb : b = k
        · simp [Memory.read, hb]
        · simpa [Memory.read, hb] using ih

/-- Reading after a write, both cases at once. -/
theorem Memory.read_write (m : Memory) (a k : Nat) (v : Byte) :
    Memory.read (Memory.write m a v) k = if k = a then v else Memory.read m k := by
  split
  · next h => subst h; exact Memory.read_write_same m k v
  · next h => exact Memory.read_write_other m a k v h

/-- Every cell after a write is the written one or one that was there at another index. -/
theorem Memory.mem_write {m : Memory} {a : Nat} {v : Byte} {c : Host.Cell}
    (h : c ∈ Memory.write m a v) : c = (a, v) ∨ c ∈ m := by
  induction m with
  | nil => simpa [Memory.write] using h
  | cons d m ih =>
    obtain ⟨b, w⟩ := d
    unfold Memory.write at h
    split at h
    · rcases List.mem_cons.1 h with h | h
      · exact .inl h
      · exact .inr h
    · split at h
      · rcases List.mem_cons.1 h with h | h
        · exact .inl h
        · exact .inr (List.mem_cons_of_mem _ h)
      · rcases List.mem_cons.1 h with h | h
        · exact .inr (h ▸ List.mem_cons_self)
        · rcases ih h with h | h
          · exact .inl h
          · exact .inr (List.mem_cons_of_mem _ h)

/-- A write keeps the canonical form. -/
theorem Memory.wf_write (m : Memory) (a : Nat) (v : Byte) (h : Memory.wf m = true) :
    Memory.wf (Memory.write m a v) = true := by
  induction m with
  | nil => simp [Memory.write, Memory.wf]
  | cons d m ih =>
    obtain ⟨b, w⟩ := d
    simp only [Memory.wf, decide_eq_true_eq, List.map_cons, List.pairwise_cons] at h ih ⊢
    obtain ⟨hb, hm⟩ := h
    unfold Memory.write
    split
    · next hab =>
      simp only [List.map_cons, List.pairwise_cons]
      refine ⟨?_, hb, hm⟩
      intro k hk
      rcases List.mem_cons.1 hk with rfl | hk
      · exact hab
      · exact lt_trans hab (hb k hk)
    · split
      · next hab => subst hab; simpa using ⟨fun k w hk => hb k (List.mem_map_of_mem (f := Prod.fst) hk), hm⟩
      · next h1 h2 =>
        simp only [List.map_cons, List.pairwise_cons]
        refine ⟨?_, ih hm⟩
        intro k hk
        obtain ⟨c, hc, rfl⟩ := List.mem_map.1 hk
        rcases Memory.mem_write hc with rfl | hc
        · change b < a
          omega
        · exact hb _ (List.mem_map_of_mem hc)

@[simp] theorem Memory.readRange_length (m : Memory) (n : Nat) :
    (Memory.readRange m n).length = n := by
  simp [Memory.readRange]

/-- The byte at every position of a range. -/
theorem Memory.readRange_getElem? (m : Memory) (n k : Nat) :
    (Memory.readRange m n)[k]? = if k < n then some (Memory.read m k) else none := by
  unfold Memory.readRange
  split
  · next h => simp [h]
  · next h => simp [Nat.not_lt.1 h]

/-- A list of bytes is a range when each of them is the byte at its index. -/
theorem Memory.readRange_eq {m : Memory} {p : List Byte}
    (h : ∀ k, k < p.length → p[k]? = some (Memory.read m k)) :
    Memory.readRange m p.length = p := by
  apply List.ext_getElem?
  intro k
  rw [Memory.readRange_getElem?]
  split
  · next hk => exact (h k hk).symm
  · next hk => exact (List.getElem?_eq_none (Nat.not_lt.1 hk)).symm

/-- A write at the end of a range or after it leaves the range alone. -/
theorem Memory.readRange_write {m : Memory} {a n : Nat} (v : Byte) (h : n ≤ a) :
    Memory.readRange (Memory.write m a v) n = Memory.readRange m n := by
  refine List.map_congr_left fun k hk => Memory.read_write_other m a k v ?_
  have := List.mem_range.1 hk
  omega

/-- `memWrite` goes on only inside the buffer, and then changes only the buffer. -/
theorem memWrite_next {i : Nat} {v : Byte} {s t : State} (h : memWrite i v s = .next t) :
    i < s.cfg.rxCapacity ∧ t = { s with rxBuf := Memory.write s.rxBuf i v } := by
  unfold memWrite at h
  split at h
  · next hi => exact ⟨hi, (Host.Outcome.next.inj h).symm⟩
  · cases h

theorem memWrite_ok {i : Nat} {v : Byte} {s : State} (h : i < s.cfg.rxCapacity) :
    memWrite i v s = .next { s with rxBuf := Memory.write s.rxBuf i v } := by
  simp [memWrite, h]

/-- `memRead` answers exactly inside the buffer. -/
theorem memRead_ok {i : Nat} {s : State} (h : i < s.cfg.rxCapacity) :
    memRead i s = .next (Memory.read s.rxBuf i) := by
  simp [memRead, h]

theorem memRead_refuses {i : Nat} {s : State} (h : s.cfg.rxCapacity ≤ i) :
    memRead i s = .refused (.rxBufOutOfRange i) := by
  simp [memRead, Nat.not_lt.2 h]

end Sys2Proof.Machine
end

