-- ==== Sys2Proof/Laws/State.lean ====
section
/-! SUPPORT. The updates of the state, field by field: one lemma per field per update, each true by
`rfl`, so that no proof unfolds an update. -/

namespace Sys2Proof.Machine

/-! ### `uartSend` -/

@[simp] theorem uartSend_cfg (bs : List Byte) (s : State) : (uartSend bs s).cfg = s.cfg := rfl
@[simp] theorem uartSend_rxState (bs : List Byte) (s : State) : (uartSend bs s).rxState = s.rxState := rfl
@[simp] theorem uartSend_rxType (bs : List Byte) (s : State) : (uartSend bs s).rxType = s.rxType := rfl
@[simp] theorem uartSend_rxLen (bs : List Byte) (s : State) : (uartSend bs s).rxLen = s.rxLen := rfl
@[simp] theorem uartSend_rxBuf (bs : List Byte) (s : State) : (uartSend bs s).rxBuf = s.rxBuf := rfl
@[simp] theorem uartSend_initState (bs : List Byte) (s : State) : (uartSend bs s).initState = s.initState := rfl
@[simp] theorem uartSend_lastResetTime (bs : List Byte) (s : State) : (uartSend bs s).lastResetTime = s.lastResetTime := rfl
@[simp] theorem uartSend_gateStart (bs : List Byte) (s : State) : (uartSend bs s).gateStart = s.gateStart := rfl
@[simp] theorem uartSend_gateLen (bs : List Byte) (s : State) : (uartSend bs s).gateLen = s.gateLen := rfl
@[simp] theorem uartSend_raw (bs : List Byte) (s : State) : (uartSend bs s).raw = s.raw := rfl
@[simp] theorem uartSend_buttons (bs : List Byte) (s : State) : (uartSend bs s).buttons = s.buttons := rfl
@[simp] theorem uartSend_sensT (bs : List Byte) (s : State) : (uartSend bs s).sensT = s.sensT := rfl
@[simp] theorem uartSend_sensR (bs : List Byte) (s : State) : (uartSend bs s).sensR = s.sensR := rfl
@[simp] theorem uartSend_mode (bs : List Byte) (s : State) : (uartSend bs s).mode = s.mode := rfl
@[simp] theorem uartSend_hidState (bs : List Byte) (s : State) : (uartSend bs s).hidState = s.hidState := rfl
@[simp] theorem uartSend_submit (bs : List Byte) (s : State) : (uartSend bs s).submit = s.submit := rfl
@[simp] theorem uartSend_lastSendTime (bs : List Byte) (s : State) : (uartSend bs s).lastSendTime = s.lastSendTime := rfl
@[simp] theorem uartSend_led (bs : List Byte) (s : State) : (uartSend bs s).led = s.led := rfl
@[simp] theorem uartSend_uartTx (bs : List Byte) (s : State) : (uartSend bs s).uartTx = s.uartTx ++ bs := rfl
@[simp] theorem uartSend_usbTx (bs : List Byte) (s : State) : (uartSend bs s).usbTx = s.usbTx := rfl
@[simp] theorem uartSend_diag (bs : List Byte) (s : State) : (uartSend bs s).diag = s.diag := rfl
@[simp] theorem uartSend_ret (bs : List Byte) (s : State) : (uartSend bs s).ret = s.ret := rfl
@[simp] theorem uartSend_draws (bs : List Byte) (s : State) : (uartSend bs s).draws = s.draws := rfl
@[simp] theorem uartSend_schedule (bs : List Byte) (s : State) : (uartSend bs s).schedule = s.schedule := rfl

/-! ### `usbSend` -/

@[simp] theorem usbSend_cfg (r : Report) (s : State) : (usbSend r s).cfg = s.cfg := rfl
@[simp] theorem usbSend_rxState (r : Report) (s : State) : (usbSend r s).rxState = s.rxState := rfl
@[simp] theorem usbSend_rxType (r : Report) (s : State) : (usbSend r s).rxType = s.rxType := rfl
@[simp] theorem usbSend_rxLen (r : Report) (s : State) : (usbSend r s).rxLen = s.rxLen := rfl
@[simp] theorem usbSend_rxBuf (r : Report) (s : State) : (usbSend r s).rxBuf = s.rxBuf := rfl
@[simp] theorem usbSend_initState (r : Report) (s : State) : (usbSend r s).initState = s.initState := rfl
@[simp] theorem usbSend_lastResetTime (r : Report) (s : State) : (usbSend r s).lastResetTime = s.lastResetTime := rfl
@[simp] theorem usbSend_gateStart (r : Report) (s : State) : (usbSend r s).gateStart = s.gateStart := rfl
@[simp] theorem usbSend_gateLen (r : Report) (s : State) : (usbSend r s).gateLen = s.gateLen := rfl
@[simp] theorem usbSend_raw (r : Report) (s : State) : (usbSend r s).raw = s.raw := rfl
@[simp] theorem usbSend_buttons (r : Report) (s : State) : (usbSend r s).buttons = s.buttons := rfl
@[simp] theorem usbSend_sensT (r : Report) (s : State) : (usbSend r s).sensT = s.sensT := rfl
@[simp] theorem usbSend_sensR (r : Report) (s : State) : (usbSend r s).sensR = s.sensR := rfl
@[simp] theorem usbSend_mode (r : Report) (s : State) : (usbSend r s).mode = s.mode := rfl
@[simp] theorem usbSend_hidState (r : Report) (s : State) : (usbSend r s).hidState = s.hidState := rfl
@[simp] theorem usbSend_submit (r : Report) (s : State) : (usbSend r s).submit = s.submit := rfl
@[simp] theorem usbSend_lastSendTime (r : Report) (s : State) : (usbSend r s).lastSendTime = s.lastSendTime := rfl
@[simp] theorem usbSend_led (r : Report) (s : State) : (usbSend r s).led = s.led := rfl
@[simp] theorem usbSend_uartTx (r : Report) (s : State) : (usbSend r s).uartTx = s.uartTx := rfl
@[simp] theorem usbSend_usbTx (r : Report) (s : State) : (usbSend r s).usbTx = s.usbTx ++ [r] := rfl
@[simp] theorem usbSend_diag (r : Report) (s : State) : (usbSend r s).diag = s.diag := rfl
@[simp] theorem usbSend_ret (r : Report) (s : State) : (usbSend r s).ret = s.ret := rfl
@[simp] theorem usbSend_draws (r : Report) (s : State) : (usbSend r s).draws = s.draws := rfl
@[simp] theorem usbSend_schedule (r : Report) (s : State) : (usbSend r s).schedule = s.schedule := rfl

/-! ### `diagnose` -/

@[simp] theorem diagnose_cfg (e : DiagEvent) (s : State) : (diagnose e s).cfg = s.cfg := rfl
@[simp] theorem diagnose_rxState (e : DiagEvent) (s : State) : (diagnose e s).rxState = s.rxState := rfl
@[simp] theorem diagnose_rxType (e : DiagEvent) (s : State) : (diagnose e s).rxType = s.rxType := rfl
@[simp] theorem diagnose_rxLen (e : DiagEvent) (s : State) : (diagnose e s).rxLen = s.rxLen := rfl
@[simp] theorem diagnose_rxBuf (e : DiagEvent) (s : State) : (diagnose e s).rxBuf = s.rxBuf := rfl
@[simp] theorem diagnose_initState (e : DiagEvent) (s : State) : (diagnose e s).initState = s.initState := rfl
@[simp] theorem diagnose_lastResetTime (e : DiagEvent) (s : State) : (diagnose e s).lastResetTime = s.lastResetTime := rfl
@[simp] theorem diagnose_gateStart (e : DiagEvent) (s : State) : (diagnose e s).gateStart = s.gateStart := rfl
@[simp] theorem diagnose_gateLen (e : DiagEvent) (s : State) : (diagnose e s).gateLen = s.gateLen := rfl
@[simp] theorem diagnose_raw (e : DiagEvent) (s : State) : (diagnose e s).raw = s.raw := rfl
@[simp] theorem diagnose_buttons (e : DiagEvent) (s : State) : (diagnose e s).buttons = s.buttons := rfl
@[simp] theorem diagnose_sensT (e : DiagEvent) (s : State) : (diagnose e s).sensT = s.sensT := rfl
@[simp] theorem diagnose_sensR (e : DiagEvent) (s : State) : (diagnose e s).sensR = s.sensR := rfl
@[simp] theorem diagnose_mode (e : DiagEvent) (s : State) : (diagnose e s).mode = s.mode := rfl
@[simp] theorem diagnose_hidState (e : DiagEvent) (s : State) : (diagnose e s).hidState = s.hidState := rfl
@[simp] theorem diagnose_submit (e : DiagEvent) (s : State) : (diagnose e s).submit = s.submit := rfl
@[simp] theorem diagnose_lastSendTime (e : DiagEvent) (s : State) : (diagnose e s).lastSendTime = s.lastSendTime := rfl
@[simp] theorem diagnose_led (e : DiagEvent) (s : State) : (diagnose e s).led = s.led := rfl
@[simp] theorem diagnose_uartTx (e : DiagEvent) (s : State) : (diagnose e s).uartTx = s.uartTx := rfl
@[simp] theorem diagnose_usbTx (e : DiagEvent) (s : State) : (diagnose e s).usbTx = s.usbTx := rfl
@[simp] theorem diagnose_diag (e : DiagEvent) (s : State) : (diagnose e s).diag = s.diag ++ [e] := rfl
@[simp] theorem diagnose_ret (e : DiagEvent) (s : State) : (diagnose e s).ret = s.ret := rfl
@[simp] theorem diagnose_draws (e : DiagEvent) (s : State) : (diagnose e s).draws = s.draws := rfl
@[simp] theorem diagnose_schedule (e : DiagEvent) (s : State) : (diagnose e s).schedule = s.schedule := rfl

/-! ### `answer` -/

@[simp] theorem answer_cfg (r : Ret) (s : State) : (answer r s).cfg = s.cfg := rfl
@[simp] theorem answer_rxState (r : Ret) (s : State) : (answer r s).rxState = s.rxState := rfl
@[simp] theorem answer_rxType (r : Ret) (s : State) : (answer r s).rxType = s.rxType := rfl
@[simp] theorem answer_rxLen (r : Ret) (s : State) : (answer r s).rxLen = s.rxLen := rfl
@[simp] theorem answer_rxBuf (r : Ret) (s : State) : (answer r s).rxBuf = s.rxBuf := rfl
@[simp] theorem answer_initState (r : Ret) (s : State) : (answer r s).initState = s.initState := rfl
@[simp] theorem answer_lastResetTime (r : Ret) (s : State) : (answer r s).lastResetTime = s.lastResetTime := rfl
@[simp] theorem answer_gateStart (r : Ret) (s : State) : (answer r s).gateStart = s.gateStart := rfl
@[simp] theorem answer_gateLen (r : Ret) (s : State) : (answer r s).gateLen = s.gateLen := rfl
@[simp] theorem answer_raw (r : Ret) (s : State) : (answer r s).raw = s.raw := rfl
@[simp] theorem answer_buttons (r : Ret) (s : State) : (answer r s).buttons = s.buttons := rfl
@[simp] theorem answer_sensT (r : Ret) (s : State) : (answer r s).sensT = s.sensT := rfl
@[simp] theorem answer_sensR (r : Ret) (s : State) : (answer r s).sensR = s.sensR := rfl
@[simp] theorem answer_mode (r : Ret) (s : State) : (answer r s).mode = s.mode := rfl
@[simp] theorem answer_hidState (r : Ret) (s : State) : (answer r s).hidState = s.hidState := rfl
@[simp] theorem answer_submit (r : Ret) (s : State) : (answer r s).submit = s.submit := rfl
@[simp] theorem answer_lastSendTime (r : Ret) (s : State) : (answer r s).lastSendTime = s.lastSendTime := rfl
@[simp] theorem answer_led (r : Ret) (s : State) : (answer r s).led = s.led := rfl
@[simp] theorem answer_uartTx (r : Ret) (s : State) : (answer r s).uartTx = s.uartTx := rfl
@[simp] theorem answer_usbTx (r : Ret) (s : State) : (answer r s).usbTx = s.usbTx := rfl
@[simp] theorem answer_diag (r : Ret) (s : State) : (answer r s).diag = s.diag := rfl
@[simp] theorem answer_ret (r : Ret) (s : State) : (answer r s).ret = r := rfl
@[simp] theorem answer_draws (r : Ret) (s : State) : (answer r s).draws = s.draws := rfl
@[simp] theorem answer_schedule (r : Ret) (s : State) : (answer r s).schedule = s.schedule := rfl

/-! ### `armGate` -/

@[simp] theorem armGate_cfg (now : Time) (n : Nat) (s : State) : (armGate now n s).cfg = s.cfg := rfl
@[simp] theorem armGate_rxState (now : Time) (n : Nat) (s : State) : (armGate now n s).rxState = s.rxState := rfl
@[simp] theorem armGate_rxType (now : Time) (n : Nat) (s : State) : (armGate now n s).rxType = s.rxType := rfl
@[simp] theorem armGate_rxLen (now : Time) (n : Nat) (s : State) : (armGate now n s).rxLen = s.rxLen := rfl
@[simp] theorem armGate_rxBuf (now : Time) (n : Nat) (s : State) : (armGate now n s).rxBuf = s.rxBuf := rfl
@[simp] theorem armGate_initState (now : Time) (n : Nat) (s : State) : (armGate now n s).initState = s.initState := rfl
@[simp] theorem armGate_lastResetTime (now : Time) (n : Nat) (s : State) : (armGate now n s).lastResetTime = s.lastResetTime := rfl
@[simp] theorem armGate_gateStart (now : Time) (n : Nat) (s : State) : (armGate now n s).gateStart = now := rfl
@[simp] theorem armGate_gateLen (now : Time) (n : Nat) (s : State) : (armGate now n s).gateLen = n := rfl
@[simp] theorem armGate_raw (now : Time) (n : Nat) (s : State) : (armGate now n s).raw = s.raw := rfl
@[simp] theorem armGate_buttons (now : Time) (n : Nat) (s : State) : (armGate now n s).buttons = s.buttons := rfl
@[simp] theorem armGate_sensT (now : Time) (n : Nat) (s : State) : (armGate now n s).sensT = s.sensT := rfl
@[simp] theorem armGate_sensR (now : Time) (n : Nat) (s : State) : (armGate now n s).sensR = s.sensR := rfl
@[simp] theorem armGate_mode (now : Time) (n : Nat) (s : State) : (armGate now n s).mode = s.mode := rfl
@[simp] theorem armGate_hidState (now : Time) (n : Nat) (s : State) : (armGate now n s).hidState = s.hidState := rfl
@[simp] theorem armGate_submit (now : Time) (n : Nat) (s : State) : (armGate now n s).submit = s.submit := rfl
@[simp] theorem armGate_lastSendTime (now : Time) (n : Nat) (s : State) : (armGate now n s).lastSendTime = s.lastSendTime := rfl
@[simp] theorem armGate_led (now : Time) (n : Nat) (s : State) : (armGate now n s).led = s.led := rfl
@[simp] theorem armGate_uartTx (now : Time) (n : Nat) (s : State) : (armGate now n s).uartTx = s.uartTx := rfl
@[simp] theorem armGate_usbTx (now : Time) (n : Nat) (s : State) : (armGate now n s).usbTx = s.usbTx := rfl
@[simp] theorem armGate_diag (now : Time) (n : Nat) (s : State) : (armGate now n s).diag = s.diag := rfl
@[simp] theorem armGate_ret (now : Time) (n : Nat) (s : State) : (armGate now n s).ret = s.ret := rfl
@[simp] theorem armGate_draws (now : Time) (n : Nat) (s : State) : (armGate now n s).draws = s.draws := rfl
@[simp] theorem armGate_schedule (now : Time) (n : Nat) (s : State) : (armGate now n s).schedule = s.schedule := rfl

/-! ### `takeStall` -/

@[simp] theorem takeStall_cfg (s : State) : (takeStall s).cfg = s.cfg := rfl
@[simp] theorem takeStall_rxState (s : State) : (takeStall s).rxState = s.rxState := rfl
@[simp] theorem takeStall_rxType (s : State) : (takeStall s).rxType = s.rxType := rfl
@[simp] theorem takeStall_rxLen (s : State) : (takeStall s).rxLen = s.rxLen := rfl
@[simp] theorem takeStall_rxBuf (s : State) : (takeStall s).rxBuf = s.rxBuf := rfl
@[simp] theorem takeStall_initState (s : State) : (takeStall s).initState = .reset := rfl
@[simp] theorem takeStall_lastResetTime (s : State) : (takeStall s).lastResetTime = s.lastResetTime := rfl
@[simp] theorem takeStall_gateStart (s : State) : (takeStall s).gateStart = s.gateStart := rfl
@[simp] theorem takeStall_gateLen (s : State) : (takeStall s).gateLen = s.gateLen := rfl
@[simp] theorem takeStall_raw (s : State) : (takeStall s).raw = s.raw := rfl
@[simp] theorem takeStall_buttons (s : State) : (takeStall s).buttons = s.buttons := rfl
@[simp] theorem takeStall_sensT (s : State) : (takeStall s).sensT = s.sensT := rfl
@[simp] theorem takeStall_sensR (s : State) : (takeStall s).sensR = s.sensR := rfl
@[simp] theorem takeStall_mode (s : State) : (takeStall s).mode = s.mode := rfl
@[simp] theorem takeStall_hidState (s : State) : (takeStall s).hidState = s.hidState := rfl
@[simp] theorem takeStall_submit (s : State) : (takeStall s).submit = s.submit := rfl
@[simp] theorem takeStall_lastSendTime (s : State) : (takeStall s).lastSendTime = s.lastSendTime := rfl
@[simp] theorem takeStall_led (s : State) : (takeStall s).led = s.led := rfl
@[simp] theorem takeStall_uartTx (s : State) : (takeStall s).uartTx = s.uartTx := rfl
@[simp] theorem takeStall_usbTx (s : State) : (takeStall s).usbTx = s.usbTx := rfl
@[simp] theorem takeStall_diag (s : State) : (takeStall s).diag = s.diag ++ [.handshakeStall] := rfl
@[simp] theorem takeStall_ret (s : State) : (takeStall s).ret = s.ret := rfl
@[simp] theorem takeStall_draws (s : State) : (takeStall s).draws = s.draws := rfl
@[simp] theorem takeStall_schedule (s : State) : (takeStall s).schedule = s.schedule := rfl

/-! ### `softReset` -/

@[simp] theorem softReset_cfg (s : State) : (softReset s).cfg = s.cfg := rfl
@[simp] theorem softReset_rxState (s : State) : (softReset s).rxState = s.rxState := rfl
@[simp] theorem softReset_rxType (s : State) : (softReset s).rxType = s.rxType := rfl
@[simp] theorem softReset_rxLen (s : State) : (softReset s).rxLen = s.rxLen := rfl
@[simp] theorem softReset_rxBuf (s : State) : (softReset s).rxBuf = s.rxBuf := rfl
@[simp] theorem softReset_initState (s : State) : (softReset s).initState = .reset := rfl
@[simp] theorem softReset_lastResetTime (s : State) : (softReset s).lastResetTime = 0#32 := rfl
@[simp] theorem softReset_gateStart (s : State) : (softReset s).gateStart = 0#32 := rfl
@[simp] theorem softReset_gateLen (s : State) : (softReset s).gateLen = 0 := rfl
@[simp] theorem softReset_raw (s : State) : (softReset s).raw = Axes.all 0#16 := rfl
@[simp] theorem softReset_buttons (s : State) : (softReset s).buttons = 0#16 := rfl
@[simp] theorem softReset_sensT (s : State) : (softReset s).sensT = 0#4 := rfl
@[simp] theorem softReset_sensR (s : State) : (softReset s).sensR = 0#4 := rfl
@[simp] theorem softReset_mode (s : State) : (softReset s).mode = 0#4 := rfl
@[simp] theorem softReset_hidState (s : State) : (softReset s).hidState = s.hidState := rfl
@[simp] theorem softReset_submit (s : State) : (softReset s).submit = s.submit := rfl
@[simp] theorem softReset_lastSendTime (s : State) : (softReset s).lastSendTime = s.lastSendTime := rfl
@[simp] theorem softReset_led (s : State) : (softReset s).led = s.led := rfl
@[simp] theorem softReset_uartTx (s : State) : (softReset s).uartTx = s.uartTx := rfl
@[simp] theorem softReset_usbTx (s : State) : (softReset s).usbTx = s.usbTx := rfl
@[simp] theorem softReset_diag (s : State) : (softReset s).diag = s.diag := rfl
@[simp] theorem softReset_ret (s : State) : (softReset s).ret = s.ret := rfl
@[simp] theorem softReset_draws (s : State) : (softReset s).draws = s.draws := rfl
@[simp] theorem softReset_schedule (s : State) : (softReset s).schedule = s.schedule := rfl

end Sys2Proof.Machine
end

