-- ==== Sys2Proof/Laws/Ops.lean ====
section
/-! SUPPORT. One lemma per shared operation that says everything it can do. -/

namespace Sys2Proof.Machine

/-! ### The configuration guard and the three recorders of a returned value -/

theorem configured_next {s t : State} {r : Result} (h : configured s r = .next t) :
    s.cfg.wellFormed = true ∧ r = .next t := by
  unfold configured at h
  split at h
  · next hw => exact ⟨hw, h⟩
  · cases h

theorem configured_ok {s : State} (r : Result) (h : s.cfg.wellFormed = true) :
    configured s r = r := by
  simp [configured, h]

theorem configured_refuses {s : State} (r : Result) (h : s.cfg.wellFormed = false) :
    configured s r = .refused .illFormedConfig := by
  simp [configured, h]

theorem transmitted_next {r : State × Option (List Byte)} {t : State}
    (h : transmitted r = .next t) : t = answer (.command r.2) r.1 := (Host.Outcome.next.inj h).symm

theorem reported_next {r : State × Option Report} {t : State} (h : reported r = .next t) :
    t = answer (.report r.2) r.1 := (Host.Outcome.next.inj h).symm

/-! ### The elapsed-time comparisons (R294) -/

theorem gateExpired_iff (now : Time) (s : State) :
    gateExpired now s = true ↔ s.gateLen ≤ (now - s.gateStart).toNat := decide_eq_true_iff

theorem intervalElapsed_iff (now : Time) (s : State) :
    intervalElapsed now s = true ↔ 8 ≤ (now - s.lastSendTime).toNat := decide_eq_true_iff

theorem stuck_iff (now : Time) (s : State) :
    stuck now s = true ↔ s.initState ≠ .reset ∧ s.initState ≠ .done ∧
      5000 < (now - s.lastResetTime).toNat := decide_eq_true_iff

/-! ### The sequencer -/

theorem stuckCheck_cases (now : Time) (s : State) :
    (stuck now s = true ∧ stuckCheck now s = takeStall s) ∨
    (stuck now s = false ∧ stuckCheck now s = s) := by
  unfold stuckCheck
  cases h : stuck now s <;> simp

theorem stuck_true {now : Time} {s : State} (h : stuck now s = true) :
    s.initState ≠ .reset ∧ s.initState ≠ .done ∧ 5000 < elapsed s.lastResetTime now := by
  simpa [stuck, stuckTimeoutMs] using h

/-- Everything one state step of a tick can do (R173, the rows of `INIT_TICK`). -/
theorem initStep_cases (now : Time) (s : State) :
    (s.initState = .reset ∧ initStep now s =
      ({ s with uartTx := s.uartTx ++ bytesCmdReset, gateStart := now, gateLen := 500,
                lastResetTime := now, initState := .requestVersion }, some bytesCmdReset)) ∨
    (s.initState = .requestVersion ∧ gateExpired now s = true ∧ initStep now s =
      ({ s with uartTx := s.uartTx ++ bytesCmdGetVersion, initState := .waitVersion },
        some bytesCmdGetVersion)) ∨
    (s.initState = .requestButtonReporting ∧ initStep now s =
      ({ s with uartTx := s.uartTx ++ bytesCmdButtonReporting, gateStart := now, gateLen := 500,
                initState := .requestSetMode }, some bytesCmdButtonReporting)) ∨
    (s.initState = .requestSetMode ∧ gateExpired now s = true ∧ initStep now s =
      ({ s with uartTx := s.uartTx ++ bytesCmdSetMode, initState := .waitSetMode },
        some bytesCmdSetMode)) ∨
    (s.initState = .requestZero ∧ initStep now s =
      ({ s with uartTx := s.uartTx ++ bytesCmdZero, initState := .waitZero },
        some bytesCmdZero)) ∨
    (((s.initState = .requestVersion ∨ s.initState = .requestSetMode) ∧
        gateExpired now s = false ∨
      s.initState = .waitVersion ∨ s.initState = .waitSetMode ∨ s.initState = .waitZero ∨
      s.initState = .done) ∧ initStep now s = (s, none)) := by
  unfold initStep
  cases hs : s.initState <;>
    simp [stepReset, stepRequestVersion, stepRequestButtonReporting, stepRequestSetMode,
      stepRequestZero, armGate, uartSend, resetSettleMs, buttonAckMs]

/-- A row of a handshake command is the tick, when the tick selects its step, or nothing. -/
theorem tickOf_cases (want : InitState) (now : Time) (s : State) :
    ((stuckCheck now s).initState = want ∧ tickOf want now s = initTick now s) ∨
    ((stuckCheck now s).initState ≠ want ∧ tickOf want now s = (s, none)) := by
  unfold tickOf
  split
  · next h => exact .inl ⟨h, rfl⟩
  · next h => exact .inr ⟨h, rfl⟩

/-- A tick writes only `init_state`, the timers, the transmit stream and the diagnostics (R160). -/
theorem initTick_frame (now : Time) (s : State) :
    ∃ ini lrt gs gl tx dg, (initTick now s).1 =
      { s with initState := ini, lastResetTime := lrt, gateStart := gs, gateLen := gl,
               uartTx := tx, diag := dg } := by
  unfold initTick
  rcases stuckCheck_cases now s with ⟨-, h⟩ | ⟨-, h⟩ <;> rw [h]
  · rcases initStep_cases now (takeStall s) with
      ⟨-, e⟩ | ⟨-, -, e⟩ | ⟨-, e⟩ | ⟨-, -, e⟩ | ⟨-, e⟩ | ⟨-, e⟩ <;> rw [e] <;>
      exact ⟨_, _, _, _, _, _, rfl⟩
  · rcases initStep_cases now s with
      ⟨-, e⟩ | ⟨-, -, e⟩ | ⟨-, e⟩ | ⟨-, -, e⟩ | ⟨-, e⟩ | ⟨-, e⟩ <;> rw [e] <;>
      exact ⟨_, _, _, _, _, _, rfl⟩

/-! ### The scheduler -/

theorem sendStep_cases (r : Report) (after : HidState) (k : Nat) (now : Time) (s : State) :
    (intervalElapsed now s = true ∧ sendStep r after k now s =
      ({ s with usbTx := s.usbTx ++ [r], lastSendTime := now, hidState := after,
                draws := s.draws + k }, some r)) ∨
    (intervalElapsed now s = false ∧ sendStep r after k now s = (s, none)) := by
  unfold sendStep
  cases h : intervalElapsed now s <;> simp [usbSend]

/-- Everything one state step of the scheduler can do (R243). -/
theorem hidStep_cases (now : Time) (s : State) :
    (s.hidState = .idle ∧ live s = s.submit ∧ hidStep now s = (s, none)) ∨
    (s.hidState = .idle ∧ live s ≠ s.submit ∧ hidStep now s =
      ({ s with submit := live s, hidState := .sendTranslation }, none)) ∨
    (s.hidState ≠ .idle ∧ intervalElapsed now s = false ∧ hidStep now s = (s, none)) ∨
    (s.hidState = .sendTranslation ∧ intervalElapsed now s = true ∧ hidStep now s =
      ({ s with usbTx := s.usbTx ++ [translationReport s], lastSendTime := now,
                hidState := .sendRotation, draws := s.draws + 3 }, some (translationReport s))) ∨
    (s.hidState = .sendRotation ∧ intervalElapsed now s = true ∧ hidStep now s =
      ({ s with usbTx := s.usbTx ++ [rotationReport s], lastSendTime := now,
                hidState := .sendButtons, draws := s.draws + 3 }, some (rotationReport s))) ∨
    (s.hidState = .sendButtons ∧ intervalElapsed now s = true ∧ hidStep now s =
      ({ s with usbTx := s.usbTx ++ [buttonsReport s], lastSendTime := now,
                hidState := .idle, draws := s.draws + 0 }, some (buttonsReport s))) := by
  unfold hidStep
  cases hs : s.hidState
  · unfold stepIdle
    by_cases h : live s = s.submit <;> simp [h]
  · rcases sendStep_cases (translationReport s) .sendRotation 3 now s with ⟨h, e⟩ | ⟨h, e⟩ <;>
      simp [stepSendTranslation, h, e]
  · rcases sendStep_cases (rotationReport s) .sendButtons 3 now s with ⟨h, e⟩ | ⟨h, e⟩ <;>
      simp [stepSendRotation, h, e]
  · rcases sendStep_cases (buttonsReport s) .idle 0 now s with ⟨h, e⟩ | ⟨h, e⟩ <;>
      simp [stepSendButtons, h, e]

/-- A row of an outbound report is the scheduler's step, when `hid_state` selects it, or nothing. -/
theorem sendOf_cases (want : HidState) (now : Time) (s : State) :
    (s.hidState = want ∧ sendOf want now s = hidStep now s) ∨
    (s.hidState ≠ want ∧ sendOf want now s = (s, none)) := by
  unfold sendOf
  split
  · next h => exact .inl ⟨h, rfl⟩
  · next h => exact .inr ⟨h, rfl⟩

/-- The LED drain writes only `led` and the model's draw counter (R238). -/
theorem ledDrain_frame (inbound : Option (List Byte)) (s : State) :
    ∃ l k, ledDrain inbound s = { s with led := l, draws := k } := by
  unfold ledDrain setLed
  repeat' split
  all_goals exact ⟨_, _, rfl⟩

/-- A host report that decodes to no LED report is consumed without effect (R111). -/
theorem ledDrain_not_led {now : Time} {bytes : List Byte} {e : DecodeError}
    {s : State} (h : decode (.hostReport now bytes) = .error e) : ledDrain (some bytes) s = s := by
  unfold ledDrain
  simp only [decode, decodeHostReport] at h
  split at h
  · next id l =>
    split at h
    · cases h
    · next hid => simp [hid]
  · next hn =>
    split
    · next id l heq => exact absurd (Option.some.inj heq) (hn id l)
    · rfl
    · rfl

/-- A step of the scheduler writes only its own registers and the report stream (R230, R45). -/
theorem hidStep_frame (now : Time) (s : State) :
    ∃ h sub lst tx k, (hidStep now s).1 =
      { s with hidState := h, submit := sub, lastSendTime := lst, usbTx := tx, draws := k } := by
  rcases hidStep_cases now s with
    ⟨-, -, e⟩ | ⟨-, -, e⟩ | ⟨-, -, e⟩ | ⟨-, -, e⟩ | ⟨-, -, e⟩ | ⟨-, -, e⟩ <;> rw [e] <;>
    exact ⟨_, _, _, _, _, rfl⟩

/-! ### The framer -/

/-- Everything `feed` can do when it goes on (R147). -/
theorem feed_next {b : Byte} {s : State} {r : State × Option Message} (h : feed b s = .next r) :
    (s.rxState = .idle ∧
      r = ({ s with rxType := classify b, rxLen := 0, rxState := .readingMessage }, none)) ∨
    (s.rxState = .readingMessage ∧ b = terminator ∧ s.rxLen < s.cfg.rxCapacity ∧
      r = ({ s with rxBuf := Memory.write s.rxBuf s.rxLen 0#8, rxState := .idle },
            some ⟨s.rxType, Memory.readRange s.rxBuf s.rxLen⟩)) ∨
    (s.rxState = .readingMessage ∧ b ≠ terminator ∧ s.rxLen < s.cfg.rxCapacity - 1 ∧
      r = ({ s with rxBuf := Memory.write s.rxBuf s.rxLen b, rxLen := s.rxLen + 1 }, none)) ∨
    (s.rxState = .readingMessage ∧ b ≠ terminator ∧ s.cfg.rxCapacity - 1 ≤ s.rxLen ∧
      r = ({ s with rxState := .drainingOverflow, diag := s.diag ++ [.frameOverflow] }, none)) ∨
    (s.rxState = .drainingOverflow ∧ b = terminator ∧ r = ({ s with rxState := .idle }, none)) ∨
    (s.rxState = .drainingOverflow ∧ b ≠ terminator ∧ r = (s, none)) := by
  unfold feed at h
  have hc : s.rxState = .idle ∨ s.rxState = .readingMessage ∨ s.rxState = .drainingOverflow := by
    cases s.rxState <;> simp
  rcases hc with hs | hs | hs <;> simp only [hs] at h
  · exact .inl ⟨hs, (Host.Outcome.next.inj h).symm⟩
  · unfold feedReading at h
    by_cases hb : b = terminator
    · rw [if_pos hb] at h
      unfold feedTerminator at h
      split at h
      · next t ht =>
        obtain ⟨hi, rfl⟩ := memWrite_next ht
        refine .inr (.inl ⟨hs, hb, hi, ?_⟩)
        rw [← Host.Outcome.next.inj h, Memory.readRange_write _ (Nat.le_refl _)]
      · cases h
      · cases h
    · rw [if_neg hb] at h
      split at h
      · next hl =>
        unfold feedStore at h
        split at h
        · next t ht =>
          obtain ⟨-, rfl⟩ := memWrite_next ht
          exact .inr (.inr (.inl ⟨hs, hb, hl, (Host.Outcome.next.inj h).symm⟩))
        · cases h
        · cases h
      · next hl =>
        refine .inr (.inr (.inr (.inl ⟨hs, hb, by omega, ?_⟩)))
        exact (Host.Outcome.next.inj h).symm
  · have hr := (Host.Outcome.next.inj h).symm
    by_cases hb : b = terminator
    · rw [if_pos hb] at hr
      exact .inr (.inr (.inr (.inr (.inl ⟨hs, hb, hr⟩))))
    · rw [if_neg hb] at hr
      exact .inr (.inr (.inr (.inr (.inr ⟨hs, hb, hr⟩))))

/-- When `feed` stops: only in `ReadingMessage`, on a length outside the buffer. -/
theorem feed_stops {b : Byte} {s : State} (h : ∀ r, feed b s ≠ .next r) :
    s.rxState = .readingMessage ∧ b = terminator ∧ s.cfg.rxCapacity ≤ s.rxLen := by
  unfold feed at h
  cases hs : s.rxState <;> simp only [hs] at h
  · exact absurd rfl (h _)
  · unfold feedReading at h
    by_cases hb : b = terminator
    · rw [if_pos hb] at h
      refine ⟨rfl, hb, Nat.not_lt.1 fun hl => ?_⟩
      unfold feedTerminator at h
      rw [memWrite_ok hl] at h
      exact absurd rfl (h _)
    · rw [if_neg hb] at h
      split at h
      · next hl =>
        unfold feedStore at h
        rw [memWrite_ok (by omega)] at h
        exact absurd rfl (h _)
      · exact absurd rfl (h _)
  · exact absurd rfl (h _)

/-- The terminator completes the frame (R143). -/
theorem feed_completes {s : State} (hs : s.rxState = .readingMessage)
    (hl : s.rxLen < s.cfg.rxCapacity) :
    feed terminator s = .next
      ({ s with rxBuf := Memory.write s.rxBuf s.rxLen 0#8, rxState := .idle },
        some ⟨s.rxType, Memory.readRange s.rxBuf s.rxLen⟩) := by
  unfold feed feedReading feedTerminator
  rw [hs, memWrite_ok hl]
  simp [Memory.readRange_write]

theorem feed_stores {b : Byte} {s : State} (hs : s.rxState = .readingMessage)
    (hb : b ≠ terminator) (hl : s.rxLen < s.cfg.rxCapacity - 1) :
    feed b s = .next
      ({ s with rxBuf := Memory.write s.rxBuf s.rxLen b, rxLen := s.rxLen + 1 }, none) := by
  unfold feed feedReading feedStore
  rw [hs, memWrite_ok (by omega)]
  simp [hb, hl, hs]

theorem feed_overflows {b : Byte} {s : State} (hs : s.rxState = .readingMessage)
    (hb : b ≠ terminator) (hl : s.cfg.rxCapacity - 1 ≤ s.rxLen) :
    feed b s = .next
      ({ s with rxState := .drainingOverflow, diag := s.diag ++ [.frameOverflow] }, none) := by
  unfold feed feedReading feedOverflow
  rw [hs]
  simp [hb, Nat.not_lt.2 hl, diagnose]

/-! ### The interpreter -/

/-- Everything `interpret` can do (R191 to R198). -/
theorem interpret_cases (m : Message) (s : State) :
    interpret m s = (s, false) ∨
    (m.type = .version ∧ interpret m s = (diagnose .versionMismatch s, false)) ∨
    (requiredLength m.type ≠ none ∧ interpret m s = (diagnose .malformedPayload s, false)) ∨
    (m.type = .version ∧ s.initState = .waitVersion ∧
      interpret m s = ({ s with initState := .requestButtonReporting }, true)) ∨
    (m.type = .modeChange ∧ interpret m s =
      ({ s with mode := decodeNibble s.cfg (m.payload.getD 0 0#8) }, true)) ∨
    (m.type = .modeChange ∧ s.initState = .waitSetMode ∧ interpret m s =
      ({ s with mode := decodeNibble s.cfg (m.payload.getD 0 0#8), initState := .requestZero },
        true)) ∨
    (m.type = .sensitivityChange ∧ interpret m s =
      ({ s with sensT := decodeNibble s.cfg (m.payload.getD 0 0#8),
                sensR := decodeNibble s.cfg (m.payload.getD 1 0#8) }, true)) ∨
    (m.type = .zero ∧ s.initState = .waitZero ∧
      interpret m s = ({ s with initState := .done }, true)) ∨
    (m.type = .keypress ∧ interpret m s =
      ({ s with buttons := cutMask s.cfg.buttonCount (keypressBitmap s.cfg m.payload) }, true)) ∨
    (m.type = .positionRotation ∧ interpret m s =
      ({ s with raw := posrotAxes s.cfg m.payload }, true)) := by
  unfold interpret
  cases hm : m.type <;> simp only [requiredLength]
  · unfold onVersion
    by_cases h : containsBytes s.cfg.versionMagic m.payload <;>
      by_cases hi : s.initState = .waitVersion <;> simp [h, hi]
  · unfold onKeypress malformed
    by_cases h : m.payload.length = 3 <;> simp [h]
  · unfold onPosrot malformed
    by_cases h : m.payload.length = 24 <;> simp [h]
  · unfold onMode malformed
    by_cases h : m.payload.length = 1
    · by_cases hi : s.initState = .waitSetMode ∧
        decodeNibble s.cfg (m.payload.getD 0 0#8) = expectedMode
      · rw [if_pos h, if_pos hi]
        exact .inr (.inr (.inr (.inr (.inr (.inl ⟨trivial, hi.1, rfl⟩)))))
      · rw [if_pos h, if_neg hi]
        exact .inr (.inr (.inr (.inr (.inl ⟨trivial, rfl⟩))))
    · simp [h]
  · unfold onZero
    by_cases h : s.initState = .waitZero <;> simp [h]
  · unfold onSens malformed
    by_cases h : m.payload.length = 2 <;> simp [h]
  · simp

/-- How the interpreter moves `init_state` (R191, R192, R194): along one edge out of each Wait
state, on the message that state waits for. -/
theorem interpret_initState (m : Message) (s : State) :
    (interpret m s).1.initState = s.initState ∨
    (s.initState = .waitVersion ∧ (interpret m s).1.initState = .requestButtonReporting ∧
      m.type = .version ∧ containsBytes s.cfg.versionMagic m.payload = true) ∨
    (s.initState = .waitSetMode ∧ (interpret m s).1.initState = .requestZero ∧
      m.type = .modeChange ∧ ∃ c, m.payload = [c] ∧ decodeNibble s.cfg c = expectedMode) ∨
    (s.initState = .waitZero ∧ (interpret m s).1.initState = .done ∧ m.type = .zero) := by
  unfold interpret
  cases hm : m.type <;> simp only
  · unfold onVersion
    split
    · next h =>
      split
      · next h' => exact .inr (.inl ⟨h', rfl, trivial, h⟩)
      · exact .inl rfl
    · exact .inl rfl
  · unfold onKeypress malformed
    split <;> exact .inl rfl
  · unfold onPosrot malformed
    split <;> exact .inl rfl
  · unfold onMode malformed
    split
    · next hl =>
      obtain ⟨c, hc⟩ := List.length_eq_one_iff.1 hl
      simp only [hc, List.getD_cons_zero]
      split
      · next h => exact .inr (.inr (.inl ⟨h.1, rfl, trivial, c, rfl, h.2⟩))
      · exact .inl rfl
    · exact .inl rfl
  · unfold onZero
    split
    · next h => exact .inr (.inr (.inr ⟨h, rfl, trivial⟩))
    · exact .inl rfl
  · unfold onSens malformed
    split <;> exact .inl rfl
  · exact .inl trivial

/-- The interpreter writes only MotionState, `mode`, `init_state` and the diagnostics (R190). -/
theorem interpret_frame (m : Message) (s : State) :
    ∃ ini md st sr bt rw dg, (interpret m s).1 =
      { s with initState := ini, mode := md, sensT := st, sensR := sr, buttons := bt, raw := rw,
               diag := dg } := by
  rcases interpret_cases m s with e | ⟨-, e⟩ | ⟨-, e⟩ | ⟨-, -, e⟩ | ⟨-, e⟩ | ⟨-, -, e⟩ | ⟨-, e⟩ |
    ⟨-, -, e⟩ | ⟨-, e⟩ | ⟨-, e⟩ <;> rw [e] <;> exact ⟨_, _, _, _, _, _, _, rfl⟩

/-! ### A request that is no instruction -/

/-- Everything that can happen with a request that is no instruction: its bytes are received, it is
offered to a tick, or of the state only the returned value changes. -/
theorem execUndecoded_cases {r : Request} {e : DecodeError} (s : State) (h : decode r = .error e)
    (hw : s.cfg.wellFormed = true) :
    (∃ bytes, r = .frame bytes ∧ execUndecoded r s = receive bytes s) ∨
    (∃ now bytes, r = .hostReport now bytes ∧
      execUndecoded r s = reported (hidTick now (some bytes) s)) ∨
    (∃ now bytes, r = .command now bytes ∧
      execUndecoded r s = .next { s with ret := .command none }) ∨
    (∃ now id, r = .sendReport now id ∧
      execUndecoded r s = .next { s with ret := .report none }) := by
  unfold execUndecoded
  rw [configured_ok _ hw]
  cases r with
  | frame bytes => exact .inl ⟨bytes, rfl, rfl⟩
  | hostReport now bytes => exact .inr (.inl ⟨now, bytes, rfl, rfl⟩)
  | command now bytes => exact .inr (.inr (.inl ⟨now, bytes, rfl, rfl⟩))
  | sendReport now id => exact .inr (.inr (.inr ⟨now, id, rfl, rfl⟩))
  | character c => cases h
  | rxByte b => cases h
  | initTick now => cases h
  | hidTick now inbound => cases h
  | softReset => cases h
  | beep => cases h

end Sys2Proof.Machine
end

