-- ==== Sys2Proof/Laws/Receive.lean ====
section
/-! SUPPORT. What receiving bytes can do: one byte, then any number of them (R63, R73, R145). -/

namespace Sys2Proof.Machine

/-! ### One byte -/

/-- A received byte goes on exactly as `feed` does (R145). -/
theorem rxByte_next {b : Byte} {s t : State} (h : rxByte b s = .next t) :
    ∃ r, feed b s = .next r ∧ t = rxComplete r := by
  unfold rxByte at h
  split at h
  · next r hr => exact ⟨r, hr, (Host.Outcome.next.inj h).symm⟩
  · cases h
  · cases h

theorem rxByte_of_feed {b : Byte} {s : State} {r : State × Option Message}
    (h : feed b s = .next r) : rxByte b s = .next (rxComplete r) := by
  unfold rxByte; rw [h]

/-- The interpreter neither reads nor writes the framer's registers (R190, R77). -/
theorem interpret_framer (m : Message) (s : State) (rs : RxState) (ty : MessageType) (n : Nat)
    (buf : Memory) (rt : Ret) :
    interpret m { s with rxState := rs, rxType := ty, rxLen := n, rxBuf := buf, ret := rt } =
      ({ (interpret m s).1 with rxState := rs, rxType := ty, rxLen := n, rxBuf := buf, ret := rt },
        (interpret m s).2) := by
  unfold interpret
  cases m.type <;>
    simp only [onVersion, onMode, onSens, onZero, onKeypress, onPosrot, malformed, diagnose] <;>
    repeat' split
  all_goals rfl

/-- A received byte writes only the framer's registers, what the interpreter writes, and the
diagnostics (R20, R77). -/
theorem rxByte_frame {b : Byte} {s t : State} (h : rxByte b s = .next t) :
    t = { s with rxState := t.rxState, rxType := t.rxType, rxLen := t.rxLen, rxBuf := t.rxBuf,
                 initState := t.initState, mode := t.mode, sensT := t.sensT, sensR := t.sensR,
                 buttons := t.buttons, raw := t.raw, diag := t.diag, ret := t.ret } := by
  obtain ⟨r, hf, rfl⟩ := rxByte_next h
  rcases feed_next hf with ⟨-, rfl⟩ | ⟨-, -, -, rfl⟩ | ⟨-, -, -, rfl⟩ | ⟨-, -, -, rfl⟩ |
    ⟨-, -, rfl⟩ | ⟨-, -, rfl⟩
  on_goal 2 =>
    obtain ⟨_, _, _, _, _, _, _, e⟩ := interpret_frame
      ⟨s.rxType, Memory.readRange s.rxBuf s.rxLen⟩
      { s with rxBuf := Memory.write s.rxBuf s.rxLen 0#8, rxState := .idle }
    simp only [rxComplete, e]
    rfl
  all_goals rfl

/-! ### Bytes one after another -/

theorem receive_append (xs ys : List Byte) (s : State) :
    receive (xs ++ ys) s =
      match receive xs s with
      | .next t => receive ys t
      | .fault f => .fault f
      | .refused r => .refused r := by
  induction xs generalizing s with
  | nil => rfl
  | cons b xs ih =>
    simp only [List.cons_append, receive]
    cases rxByte b s with
    | next t => exact ih t
    | fault f => rfl
    | refused r => rfl

/-- What every received byte keeps, receiving keeps. -/
theorem receive_induction {P : State → Prop}
    (hP : ∀ b u v, P u → rxByte b u = .next v → P v) {bs : List Byte} {s t : State} (hs : P s)
    (h : receive bs s = .next t) : P t := by
  induction bs generalizing s with
  | nil => exact Host.Outcome.next.inj h ▸ hs
  | cons b bs ih =>
    simp only [receive] at h
    split at h
    · next u hu => exact ih (hP b s u hs hu) h
    · cases h
    · cases h

/-- Receiving writes only what a received byte writes (R20, R77). -/
theorem receive_frame {bs : List Byte} {s t : State} (h : receive bs s = .next t) :
    t = { s with rxState := t.rxState, rxType := t.rxType, rxLen := t.rxLen, rxBuf := t.rxBuf,
                 initState := t.initState, mode := t.mode, sensT := t.sensT, sensR := t.sensR,
                 buttons := t.buttons, raw := t.raw, diag := t.diag, ret := t.ret } := by
  refine receive_induction (P := fun t => t = { s with
    rxState := t.rxState, rxType := t.rxType, rxLen := t.rxLen, rxBuf := t.rxBuf,
    initState := t.initState, mode := t.mode, sensT := t.sensT, sensR := t.sensR,
    buttons := t.buttons, raw := t.raw, diag := t.diag, ret := t.ret }) ?_ rfl h
  intro b u v hu hv
  have e := rxByte_frame hv
  rw [hu] at e
  exact e

/-- A received byte goes on where the length is in range; so do any number of them, if each keeps
it (I1 of R42). -/
theorem receive_goesOn {P : State → Prop} (hP : ∀ b u, P u → ∃ v, rxByte b u = .next v ∧ P v)
    (bs : List Byte) {s : State} (hs : P s) : ∃ t, receive bs s = .next t := by
  induction bs generalizing s with
  | nil => exact ⟨s, rfl⟩
  | cons b bs ih =>
    obtain ⟨v, hv, hPv⟩ := hP b s hs
    obtain ⟨t, ht⟩ := ih hPv
    exact ⟨t, by simp only [receive, hv, ht]⟩

/-- `RX_BYTE` of each of the bytes, as instructions, is receiving them. -/
theorem runAll_rxByte (bs : List Byte) {s : State} (hw : s.cfg.wellFormed = true) :
    runAll (bs.map .rxByte) s = receive bs s := by
  induction bs generalizing s with
  | nil => rfl
  | cons b bs ih =>
    have hb : exec (.rxByte b) s = rxByte b s := configured_ok _ hw
    simp only [List.map_cons, runAll, receive, hb]
    cases h : rxByte b s with
    | next t => exact ih (by rw [rxByte_frame h]; exact hw)
    | fault f => rfl
    | refused r => rfl

/-! ### Bytes of one frame -/

/-- Payload bytes that fit are stored from `rx_len` on (R143). -/
theorem receive_payload {p : List Byte} {s : State} (hs : s.rxState = .readingMessage)
    (hp : terminator ∉ p) (hl : s.rxLen + p.length ≤ s.cfg.rxCapacity - 1) :
    ∃ buf rt,
      receive p s = .next { s with rxBuf := buf, rxLen := s.rxLen + p.length, ret := rt } ∧
      (∀ k, k < p.length → p[k]? = some (Memory.read buf (s.rxLen + k))) ∧
      ∀ k, k < s.rxLen ∨ s.rxLen + p.length ≤ k → Memory.read buf k = Memory.read s.rxBuf k := by
  induction p generalizing s with
  | nil => exact ⟨s.rxBuf, s.ret, rfl, nofun, fun _ _ => rfl⟩
  | cons b p ih =>
    simp only [List.mem_cons, not_or] at hp
    simp only [List.length_cons] at hl
    let u : State := { s with rxBuf := Memory.write s.rxBuf s.rxLen b, rxLen := s.rxLen + 1,
                              ret := .rx none false }
    obtain ⟨buf, rt, h1, h2, h3⟩ := ih (s := u) hs hp.2
      (show s.rxLen + 1 + p.length ≤ s.cfg.rxCapacity - 1 by omega)
    refine ⟨buf, rt, ?_, ?_, ?_⟩
    · have hb : rxByte b s = .next u :=
        rxByte_of_feed (feed_stores hs (Ne.symm hp.1) (by omega))
      simp only [receive, hb, h1, u, List.length_cons, Nat.add_assoc, Nat.add_comm 1]
    · intro k hk
      cases k with
      | zero =>
        rw [Nat.add_zero, h3 s.rxLen (.inl (Nat.lt_succ_self _))]
        simp [u, Memory.read_write_same]
      | succ k =>
        have := h2 k (by simpa using hk)
        simpa [u, Nat.add_assoc, Nat.add_comm 1] using this
    · intro k hk
      simp only [List.length_cons] at hk
      rw [h3 k (by simp only [u]; omega)]
      exact Memory.read_write_other _ _ _ _ (by omega)

/-- Payload bytes that fit, then the terminator: what was in the buffer and they are the message
(R143, R145). -/
theorem receive_message {p : List Byte} {s : State} (hw : 0 < s.cfg.rxCapacity)
    (hs : s.rxState = .readingMessage) (hp : terminator ∉ p)
    (hl : s.rxLen + p.length ≤ s.cfg.rxCapacity - 1) :
    let m : Message := ⟨s.rxType, Memory.readRange s.rxBuf s.rxLen ++ p⟩
    ∃ buf, HoldsFrame s.rxBuf buf m.payload ∧
      receive (p ++ [terminator]) s =
        .next (rxComplete ({ s with rxBuf := buf, rxLen := m.length, rxState := .idle }, some m)) := by
  intro m
  obtain ⟨buf, rt, h1, h2, h3⟩ := receive_payload hs hp hl
  have hm : m.payload.length = s.rxLen + p.length := by simp [m]
  have hb : ∀ k, k < m.payload.length → m.payload[k]? = some (Memory.read buf k) := by
    intro k hk
    by_cases h : k < s.rxLen
    · rw [List.getElem?_append_left (by simpa using h), Memory.readRange_getElem?, if_pos h,
        h3 k (.inl h)]
    · rw [List.getElem?_append_right (by simpa using h), Memory.readRange_length,
        h2 _ (by omega), Nat.add_sub_cancel' (Nat.not_lt.1 h)]
  refine ⟨Memory.write buf m.payload.length 0#8, ⟨fun k hk => ?_, ?_, fun k hk => ?_⟩, ?_⟩
  · rw [hb k hk, Memory.read_write_other _ _ _ _ (by omega)]
  · exact Memory.read_write_same _ _ _
  · rw [Memory.read_write_other _ _ _ _ (by omega), h3 k (.inr (by omega))]
  · have hf := feed_completes
      (s := { s with rxBuf := buf, rxLen := s.rxLen + p.length, ret := rt }) hs
      (show s.rxLen + p.length < s.cfg.rxCapacity by omega)
    rw [receive_append, h1]
    simp only [receive, rxByte_of_feed hf]
    simp only [← hm, Memory.readRange_eq hb, rxComplete]
    rw [show m.length = m.payload.length from rfl,
      show (⟨s.rxType, m.payload⟩ : Message) = m from rfl]
    have e := interpret_framer m s .idle s.rxType m.payload.length
      (Memory.write buf m.payload.length 0#8)
    have e1 := e rt
    have e2 := e s.ret
    simp only at e1 e2
    rw [e1, e2]
    rfl

/-- While draining, bytes without a terminator are discarded (R144). -/
theorem receive_drained {p : List Byte} {s : State} (hs : s.rxState = .drainingOverflow)
    (hp : terminator ∉ p) : ∃ rt, receive p s = .next { s with ret := rt } := by
  induction p generalizing s with
  | nil => exact ⟨s.ret, rfl⟩
  | cons b p ih =>
    simp only [List.mem_cons, not_or] at hp
    have hf : feed b s = .next (s, none) := by
      simp only [feed, hs, feedDraining, if_neg (Ne.symm hp.1)]
    obtain ⟨rt, h⟩ := ih (s := { s with ret := .rx none false }) hs hp.2
    refine ⟨rt, ?_⟩
    simp only [receive, rxByte_of_feed hf, rxComplete, answer, h]

/-- While draining, the bytes up to the terminator are discarded and it returns to `Idle` (R144). -/
theorem receive_draining {p : List Byte} {s : State} (hs : s.rxState = .drainingOverflow)
    (hp : terminator ∉ p) :
    receive (p ++ [terminator]) s = .next { s with rxState := .idle, ret := .rx none false } := by
  obtain ⟨rt, h⟩ := receive_drained hs hp
  rw [receive_append, h]
  simp only [receive, rxByte, feed, hs, feedDraining, if_true, rxComplete, answer]

/-- Payload bytes that do not fit, then the terminator: the frame is dropped, one `FrameOverflow`,
and the bytes that fit stay stored (R143, R144, R282). -/
theorem receive_overlong {p : List Byte} {s : State} (hs : s.rxState = .readingMessage)
    (hp : terminator ∉ p) (h0 : s.rxLen ≤ s.cfg.rxCapacity - 1)
    (hl : s.cfg.rxCapacity - 1 < s.rxLen + p.length) :
    ∃ buf,
      (∀ k, s.rxLen + k < s.cfg.rxCapacity - 1 → p[k]? = some (Memory.read buf (s.rxLen + k))) ∧
      (∀ k, k < s.rxLen ∨ s.cfg.rxCapacity - 1 ≤ k → Memory.read buf k = Memory.read s.rxBuf k) ∧
      receive (p ++ [terminator]) s = .next { s with
        rxBuf := buf, rxLen := s.cfg.rxCapacity - 1, rxState := .idle
        diag := s.diag ++ [.frameOverflow], ret := .rx none false } := by
  obtain ⟨n, hn⟩ : ∃ n, s.rxLen + n = s.cfg.rxCapacity - 1 := ⟨_, Nat.add_sub_cancel' h0⟩
  have hnl : n < p.length := by omega
  have hsplit : p = p.take n ++ p[n] :: p.drop (n + 1) := by
    rw [← List.drop_eq_getElem_cons hnl, List.take_append_drop]
  have htl : (p.take n).length = n := by simp; omega
  obtain ⟨buf, rt, h1, h2, h3⟩ := receive_payload (p := p.take n) hs
    (fun h => hp (List.mem_of_mem_take h)) (by omega)
  rw [htl, hn] at h1 h3
  refine ⟨buf, fun k hk => ?_, h3, ?_⟩
  · rw [← h2 k (by omega), List.getElem?_take, if_pos (by omega)]
  · have hb : p[n] ≠ terminator := fun h => hp (h ▸ List.getElem_mem hnl)
    have hq : terminator ∉ p.drop (n + 1) := fun h => hp (List.mem_of_mem_drop h)
    have hf := feed_overflows (b := p[n])
      (s := { s with rxBuf := buf, rxLen := s.cfg.rxCapacity - 1, ret := rt }) hs hb (Nat.le_refl _)
    have hd := receive_draining (p := p.drop (n + 1))
      (s := { s with rxBuf := buf, rxLen := s.cfg.rxCapacity - 1, rxState := .drainingOverflow
                     diag := s.diag ++ [.frameOverflow], ret := .rx none false }) rfl hq
    rw [hsplit, List.append_assoc, receive_append, h1]
    simp only [List.cons_append, receive, rxByte_of_feed hf, rxComplete, answer, hd]

/-- The bytes of a frame after its tag, from `Idle` (R142). -/
theorem receive_tag {tag : Byte} {bs : List Byte} {s : State} (hs : s.rxState = .idle) :
    receive (tag :: bs) s = receive bs { s with
      rxType := classify tag, rxLen := 0, rxState := .readingMessage, ret := .rx none false } := by
  simp only [receive, rxByte, feed, hs, feedIdle, rxComplete, answer]

/-- A frame whose payload fits, received from `Idle`, is interpreted (R142, R143, R145). -/
theorem receive_frameBytes {tag : Byte} {p : List Byte} {s : State} (hw : 0 < s.cfg.rxCapacity)
    (hs : s.rxState = .idle) (hp : terminator ∉ p) (hl : p.length ≤ s.cfg.rxCapacity - 1) :
    let m : Message := ⟨classify tag, p⟩
    ∃ buf, HoldsFrame s.rxBuf buf p ∧
      receive (frameBytes tag p) s = .next { (interpret m s).1 with
        rxState := .idle, rxType := classify tag, rxLen := p.length, rxBuf := buf
        ret := .rx (some m) (interpret m s).2 } := by
  intro m
  obtain ⟨buf, h1, h2⟩ := receive_message
    (s := { s with rxType := classify tag, rxLen := 0, rxState := .readingMessage
                   ret := .rx none false }) hw rfl hp (by simpa using hl)
  refine ⟨buf, h1, ?_⟩
  rw [frameBytes, receive_tag hs, h2]
  have e := interpret_framer m s .idle (classify tag) p.length buf (.rx none false)
  simp only [rxComplete, Memory.readRange, List.range_zero, List.map_nil, List.nil_append]
  rw [show (Message.length ⟨classify tag, p⟩) = p.length from rfl,
    show (⟨classify tag, p⟩ : Message) = m from rfl, e]
  rfl

/-- A frame whose payload does not fit, received from `Idle`, is dropped (R109). -/
theorem receive_overlongFrameBytes {tag : Byte} {p : List Byte} {s : State} (hs : s.rxState = .idle)
    (hp : terminator ∉ p) (hl : s.cfg.rxCapacity - 1 < p.length) :
    ∃ buf,
      (∀ k, k < s.cfg.rxCapacity - 1 → p[k]? = some (Memory.read buf k)) ∧
      (∀ k, s.cfg.rxCapacity - 1 ≤ k → Memory.read buf k = Memory.read s.rxBuf k) ∧
      receive (frameBytes tag p) s = .next { s with
        rxType := classify tag, rxLen := s.cfg.rxCapacity - 1, rxBuf := buf
        diag := s.diag ++ [.frameOverflow], ret := .rx none false } := by
  obtain ⟨buf, h1, h2, h3⟩ := receive_overlong
    (s := { s with rxType := classify tag, rxLen := 0, rxState := .readingMessage
                   ret := .rx none false }) rfl hp (Nat.zero_le _) (by simpa using hl)
  refine ⟨buf, fun k hk => ?_, fun k hk => h2 k (.inr hk), ?_⟩
  · simpa using h1 k (by simpa using hk)
  · rw [frameBytes, receive_tag hs, h3, ← hs]

end Sys2Proof.Machine
end

