-- ==== Sys2Proof/Laws/Exec.lean ====
section
/-! SUPPORT. What `exec` can do, once: every instruction that goes on is one of the shared
operations, with its returned value recorded. -/

namespace Sys2Proof.Machine

/-- The tick of the sequencer and the rows of the handshake commands, at `now`. -/
abbrev sequencerAt (i : Instr) (now : Time) : Prop :=
  i = .initTick now ∨ i = .cmdReset now ∨ i = .cmdGetVersion now ∨ i = .cmdButtonReporting now ∨
    i = .cmdSetMode now ∨ i = .cmdZero now

/-- The step whose command an instruction is the row of. -/
def ownStep : Instr → Option InitState
  | .cmdReset _ => some .reset
  | .cmdGetVersion _ => some .requestVersion
  | .cmdButtonReporting _ => some .requestButtonReporting
  | .cmdSetMode _ => some .requestSetMode
  | .cmdZero _ => some .requestZero
  | _ => none

/-- The rows of the reports the block sends, at `now`. -/
abbrev reportAt (i : Instr) (now : Time) : Prop :=
  i = .reportTranslation now ∨ i = .reportRotation now ∨ i = .reportButtons now

/-- The ways an instruction that goes on changes the state, one constructor per shared operation. -/
inductive Ran (s : State) : Instr → State → Prop where
  /-- Nothing but the returned value: a nibble, or a row whose step is not selected. -/
  | same (i : Instr) (r : Ret) : i ≠ .softReset → Ran s i (answer r s)
  /-- Bytes received: `RX_BYTE`, and the rows of the inbound frames. -/
  | bytes (i : Instr) (t : State) : receivedBytes i ≠ [] → receive (receivedBytes i) s = .next t →
      Ran s i t
  /-- A tick of the sequencer, by itself or as the row of the command it transmits, selected after
  the stuck check. -/
  | tick (i : Instr) (now : Time) : sequencerAt i now →
      (∀ w, ownStep i = some w → (stuckCheck now s).initState = w) →
      (stuck now s = true → i = .initTick now ∨ i = .cmdReset now) →
      Ran s i (answer (.command (initTick now s).2) (initTick now s).1)
  /-- A beep. -/
  | beep (i : Instr) : i = .beep ∨ i = .cmdBeep →
      Ran s i (answer (.command (some bytesCmdBeep)) (uartSend bytesCmdBeep s))
  /-- A state step of the scheduler, as the row of the report it sends. -/
  | send (i : Instr) (now : Time) : reportAt i now → s.hidState ≠ .idle →
      Ran s i (answer (.report (hidStep now s).2) (hidStep now s).1)
  /-- A tick of the scheduler, by itself or as the row of the LED report it is offered. -/
  | hid (i : Instr) (now : Time) (inbound : Option (List Byte)) :
      i = .hidTick now inbound ∨
        (∃ l, i = .reportLed ⟨now, l⟩ ∧ inbound = some [reportIdLed, l]) →
      Ran s i (answer (.report (hidStep now s).2) (ledDrain inbound (hidStep now s).1))
  /-- The external reset request. -/
  | reset : Ran s .softReset (answer .unit (softReset s))

/-- `tickOf` as a `Ran`: the row of a command whose step is not the Reset step is never selected by
a stall. -/
theorem ran_tickOf {i : Instr} {s : State} {want : InitState} {now : Time}
    (hi : sequencerAt i now) (ho : ownStep i = some want) (hw : want ≠ .reset ∨ i = .cmdReset now) :
    Ran s i (answer (.command (tickOf want now s).2) (tickOf want now s).1) := by
  rcases tickOf_cases want now s with ⟨h, e⟩ | ⟨-, e⟩ <;> rw [e]
  · refine .tick i now hi (fun w hs => h.trans (Option.some.inj (ho.symm.trans hs))) fun hst => ?_
    rcases hw with hw | hw
    · rcases stuckCheck_cases now s with ⟨-, e'⟩ | ⟨hn, -⟩
      · rw [e'] at h
        exact absurd h.symm hw
      · rw [hn] at hst
        cases hst
    · exact .inr hw
  · refine .same i _ ?_
    rintro rfl
    simp [sequencerAt] at hi

theorem ran_sendOf {i : Instr} {s : State} {want : HidState} {now : Time}
    (hi : reportAt i now) (hw : want ≠ .idle) :
    Ran s i (answer (.report (sendOf want now s).2) (sendOf want now s).1) := by
  rcases sendOf_cases want now s with ⟨h, e⟩ | ⟨-, e⟩ <;> rw [e]
  · exact .send i now hi (h ▸ hw)
  · refine .same i _ ?_
    rintro rfl
    simp [reportAt] at hi

/-- An instruction that takes bytes from the UART receives them (R90, R145). -/
theorem exec_receives {i : Instr} (s : State) (h : receivedBytes i ≠ []) :
    exec i s = configured s (receive (receivedBytes i) s) := by
  cases i
  case rxByte b =>
    change configured s (rxByte b s) = configured s (receive [b] s)
    congr 1
    unfold receive
    cases rxByte b s <;> rfl
  all_goals first | rfl | exact absurd rfl h

/-- Everything `exec` can do when it answers a next state. -/
theorem exec_ran {i : Instr} {s t : State} (h : exec i s = .next t) : Ran s i t := by
  by_cases hb : receivedBytes i = []
  on_goal 2 => exact .bytes _ _ hb (configured_next (exec_receives s hb ▸ h)).2
  cases i with
  | version p => cases hb
  | keypress p => cases hb
  | posrot p => cases hb
  | mode p => cases hb
  | zero p => cases hb
  | sens p => cases hb
  | unknown tag bytes => exact absurd hb (by simp [receivedBytes])
  | rxByte b => cases hb
  | nibble c =>
    rw [← Host.Outcome.next.inj (configured_next h).2]; exact .same _ _ (by simp)
  | cmdReset now =>
    rw [transmitted_next (configured_next h).2]; exact ran_tickOf (by simp [sequencerAt]) rfl (.inr rfl)
  | cmdGetVersion now =>
    rw [transmitted_next (configured_next h).2]; exact ran_tickOf (by simp [sequencerAt]) rfl (.inl (by simp))
  | cmdButtonReporting now =>
    rw [transmitted_next (configured_next h).2]; exact ran_tickOf (by simp [sequencerAt]) rfl (.inl (by simp))
  | cmdSetMode now =>
    rw [transmitted_next (configured_next h).2]; exact ran_tickOf (by simp [sequencerAt]) rfl (.inl (by simp))
  | cmdZero now =>
    rw [transmitted_next (configured_next h).2]; exact ran_tickOf (by simp [sequencerAt]) rfl (.inl (by simp))
  | cmdBeep =>
    rw [transmitted_next (configured_next h).2]; exact .beep _ (by simp)
  | reportTranslation now =>
    rw [reported_next (configured_next h).2]; exact ran_sendOf (by simp [reportAt]) (by simp)
  | reportRotation now =>
    rw [reported_next (configured_next h).2]; exact ran_sendOf (by simp [reportAt]) (by simp)
  | reportButtons now =>
    rw [reported_next (configured_next h).2]; exact ran_sendOf (by simp [reportAt]) (by simp)
  | reportLed l =>
    rw [reported_next (configured_next h).2]; exact .hid _ l.now _ (.inr ⟨l.value, rfl, rfl⟩)
  | initTick now =>
    rw [transmitted_next (configured_next h).2]; exact .tick _ now (.inl rfl) nofun fun _ => .inl rfl
  | hidTick now inbound =>
    rw [reported_next (configured_next h).2]; exact .hid _ now inbound (.inl rfl)
  | softReset =>
    rw [← Host.Outcome.next.inj (configured_next h).2]; exact .reset
  | beep =>
    rw [transmitted_next (configured_next h).2]; exact .beep _ (by simp)

/-- Everything a step can do when it answers a next state: nothing was presented; the request's
instruction ran; or the request was no instruction, and its bytes were received, it was offered to a
tick of the scheduler, or nothing came of it. -/
theorem step_cases {s t : State} (h : step s = .next t) :
    (s.schedule = [] ∧ t = s) ∨
    (∃ r rest i, s.schedule = r :: rest ∧ decode r = .ok i ∧
      exec i { s with schedule := rest } = .next t) ∨
    (∃ r rest e, s.schedule = r :: rest ∧ decode r = .error e ∧
      ((∃ bytes, receive bytes { s with schedule := rest } = .next t) ∨
        (∃ now inbound, exec (.hidTick now inbound) { s with schedule := rest } = .next t) ∨
        ∃ rt, t = { s with schedule := rest, ret := rt })) := by
  unfold step at h
  split at h
  · next hs => exact .inl ⟨hs, (Host.Outcome.next.inj (configured_next h).2).symm⟩
  · next r rest hs =>
    split at h
    · next i hi => exact .inr (.inl ⟨r, rest, i, hs, hi, h⟩)
    · next e he =>
      refine .inr (.inr ⟨r, rest, e, hs, he, ?_⟩)
      have hw := (configured_next h).1
      rcases execUndecoded_cases { s with schedule := rest } he hw with
        ⟨bytes, -, k⟩ | ⟨now, bytes, -, k⟩ | ⟨_, _, -, k⟩ | ⟨_, _, -, k⟩ <;> rw [k] at h
      · exact .inl ⟨bytes, h⟩
      · exact .inr (.inl ⟨now, some bytes, (configured_ok _ hw).trans h⟩)
      · exact .inr (.inr ⟨_, (Host.Outcome.next.inj h).symm⟩)
      · exact .inr (.inr ⟨_, (Host.Outcome.next.inj h).symm⟩)

/-- No instruction runs under an ill-formed configuration (R12). -/
theorem exec_wellFormed {i : Instr} {s t : State} (h : exec i s = .next t) :
    s.cfg.wellFormed = true := by
  cases i <;> exact (configured_next h).1

end Sys2Proof.Machine
end

