-- ==== Sys2Proof/Laws/Numerics.lean ====
section
/-! SUPPORT. What the rounding operations of the default numerics do, over the rationals. -/

namespace Sys2Proof.Machine

/-- Scaling by a power of two, exactly. -/
theorem scaleRatio_spec (num den : Nat) (s : Int) (hd : 0 < den) :
    0 < (scaleRatio num den s).2 ∧
    ((scaleRatio num den s).1 : ℚ) / (scaleRatio num den s).2 = (num : ℚ) / den * 2 ^ s := by
  refine ⟨Nat.mul_pos hd (by positivity), ?_⟩
  have hd' : (den : ℚ) ≠ 0 := by exact_mod_cast hd.ne'
  simp only [scaleRatio, Nat.cast_mul, Nat.cast_pow, Nat.cast_ofNat]
  rcases le_total 0 s with h | h
  · obtain ⟨n, rfl⟩ := Int.eq_ofNat_of_zero_le h
    simp [zpow_natCast]
    ring
  · obtain ⟨n, hn⟩ := Int.eq_ofNat_of_zero_le (Int.neg_nonneg.2 h)
    have hs : s = -(n : Int) := by omega
    subst hs
    simp [zpow_neg, zpow_natCast]
    field_simp

/-- `roundRatio` gives the nearest integer; a tie goes to the even one. -/
theorem roundRatio_spec (num den : Nat) (hd : 0 < den) :
    |(roundRatio num den : ℚ) - num / den| ≤ 1 / 2 ∧
    (|(roundRatio num den : ℚ) - num / den| = 1 / 2 → roundRatio num den % 2 = 0) := by
  have hd' : (0 : ℚ) < den := by exact_mod_cast hd
  have hm : (num : ℚ) = den * (num / den : Nat) + (num % den : Nat) := by
    exact_mod_cast (Nat.div_add_mod num den).symm
  have hr := Nat.mod_lt num hd
  generalize hq : num / den = q at hm
  generalize hr' : num % den = r at hm hr
  have hx : (num : ℚ) / den = q + r / den := by rw [hm]; field_simp
  simp only [roundRatio, hq, hr']
  rw [hx]
  have hrn : (0 : ℚ) ≤ (r : ℚ) / den := by positivity
  split
  · next h =>
    have h2 : (r : ℚ) / den < 1 / 2 := by
      rw [div_lt_div_iff₀ hd' (by norm_num)]
      exact_mod_cast (by omega : r * 2 < 1 * den)
    rw [show (q : ℚ) - (q + r / den) = -(r / den) by ring, abs_neg, abs_of_nonneg hrn]
    exact ⟨h2.le, fun e => absurd e h2.ne⟩
  · split
    · next h =>
      have h2 : 1 / 2 < (r : ℚ) / den := by
        rw [div_lt_div_iff₀ (by norm_num) hd']
        exact_mod_cast (by omega : 1 * den < r * 2)
      have h3 : (r : ℚ) / den < 1 := by
        rw [div_lt_one hd']
        exact_mod_cast hr
      push_cast
      rw [show (q : ℚ) + 1 - (q + r / den) = 1 - r / den by ring, abs_of_nonneg (by linarith)]
      exact ⟨by linarith, fun e => absurd e (by linarith)⟩
    · have h2 : (r : ℚ) / den = 1 / 2 := by
        rw [div_eq_div_iff hd'.ne' (by norm_num)]
        exact_mod_cast (by omega : r * 2 = 1 * den)
      push_cast
      rcases Nat.mod_two_eq_zero_or_one q with h | h
      · rw [h, h2]
        refine ⟨?_, fun _ => by omega⟩
        rw [show (q : ℚ) + (0 : Nat) - (q + 1 / 2) = -(1 / 2) by push_cast; ring]
        norm_num
      · rw [h, h2]
        refine ⟨?_, fun _ => by omega⟩
        rw [show (q : ℚ) + (1 : Nat) - (q + 1 / 2) = 1 / 2 by push_cast; ring]
        norm_num

/-- No integer is nearer than `roundRatio`, and one as near, if it is another, means a tie. -/
theorem roundRatio_nearest (num den : Nat) (hd : 0 < den) (k : Int) :
    |(roundRatio num den : ℚ) - num / den| ≤ |(k : ℚ) - num / den| ∧
    (|(roundRatio num den : ℚ) - num / den| = |(k : ℚ) - num / den| →
      (k : ℚ) ≠ roundRatio num den → roundRatio num den % 2 = 0) := by
  obtain ⟨h1, h2⟩ := roundRatio_spec num den hd
  generalize (num : ℚ) / den = x at *
  generalize roundRatio num den = r at *
  have h1' := abs_le.1 h1
  by_cases hk : (k : ℚ) = r
  · rw [hk]
    exact ⟨le_rfl, fun _ h => absurd rfl h⟩
  · have hk' : k ≠ (r : Int) := fun e => hk (by rw [e]; norm_cast)
    have hfar : 1 / 2 ≤ |(k : ℚ) - x| := by
      rcases lt_or_gt_of_ne hk' with h | h
      · have : (k : ℚ) + 1 ≤ r := by exact_mod_cast h
        rw [abs_sub_comm]
        exact le_trans (by linarith) (le_abs_self _)
      · have : (r : ℚ) + 1 ≤ k := by exact_mod_cast h
        exact le_trans (by linarith) (le_abs_self _)
    exact ⟨h1.trans hfar, fun e _ => h2 (le_antisymm h1 (e ▸ hfar))⟩

/-- The scale of a positive ratio brings it into the range of a significand. -/
theorem significandScale_spec (num den : Nat) (hn : 0 < num) (hd : 0 < den) :
    2 ^ 23 ≤ (num : ℚ) / den * 2 ^ significandScale num den ∧
    (num : ℚ) / den * 2 ^ significandScale num den < 2 ^ 24 := by
  set s : Int := 24 + (Nat.log2 den : Int) - (Nat.log2 num : Int) with hs
  have hn' : (0 : ℚ) < num := by exact_mod_cast hn
  have hd' : (0 : ℚ) < den := by exact_mod_cast hd
  have n1 : ((2 : ℚ) ^ Nat.log2 num) ≤ num := by exact_mod_cast Nat.log2_self_le hn.ne'
  have n2 : (num : ℚ) < 2 ^ (Nat.log2 num + 1) := by exact_mod_cast Nat.lt_log2_self
  have d1 : ((2 : ℚ) ^ Nat.log2 den) ≤ den := by exact_mod_cast Nat.log2_self_le hd.ne'
  have d2 : (den : ℚ) < 2 ^ (Nat.log2 den + 1) := by exact_mod_cast Nat.lt_log2_self
  have e : (2 : ℚ) ^ s = 2 ^ 24 * 2 ^ Nat.log2 den / 2 ^ Nat.log2 num := by
    rw [hs, zpow_sub₀ (by norm_num), zpow_add₀ (by norm_num)]
    norm_cast
  have p1 : (0 : ℚ) < 2 ^ Nat.log2 num := by positivity
  have p2 : (0 : ℚ) < 2 ^ Nat.log2 den := by positivity
  have low : 2 ^ 23 ≤ (num : ℚ) / den * 2 ^ s := by
    rw [e, div_mul_div_comm, le_div_iff₀ (by positivity)]
    rw [pow_succ] at d2
    nlinarith [mul_le_mul n1 d2.le hd'.le hn'.le]
  have high : (num : ℚ) / den * 2 ^ s < 2 ^ 25 := by
    rw [e, div_mul_div_comm, div_lt_iff₀ (by positivity)]
    rw [pow_succ] at n2
    nlinarith [mul_lt_mul n2 d1 p2 (by positivity : (0 : ℚ) ≤ 2 ^ Nat.log2 num * 2)]
  obtain ⟨q1, q2⟩ := scaleRatio_spec num den s hd
  have q1' : (0 : ℚ) < (scaleRatio num den s).2 := by exact_mod_cast q1
  have key : 2 ^ 24 ≤ (scaleRatio num den s).1 / (scaleRatio num den s).2 ↔
      (2 : ℚ) ^ 24 ≤ (num : ℚ) / den * 2 ^ s := by
    rw [← q2, Nat.le_div_iff_mul_le q1, le_div_iff₀ q1']
    norm_cast
  have hsig : significandScale num den =
      if 2 ^ 24 ≤ (scaleRatio num den s).1 / (scaleRatio num den s).2 then s - 1 else s := rfl
  rw [hsig]
  split
  · next h =>
    rw [zpow_sub_one₀ (by norm_num)]
    have := key.1 h
    constructor <;> linarith
  · next h =>
    exact ⟨low, lt_of_not_ge fun h' => h (key.2 h')⟩

/-- The value of the bits that `ratioBits` composes: exponent field `k + 1`, significand `r`; a
significand of 2^24 carries. -/
theorem normValue_bits (k r : Nat) (hk : k ≤ 252) (h1 : 2 ^ 23 ≤ r) (h2 : r ≤ 2 ^ 24) :
    normNegative (BitVec.ofNat 32 (k * 2 ^ 23 + r)) = false ∧
    normExponent (BitVec.ofNat 32 (k * 2 ^ 23 + r)) ≠ 255 ∧
    normValue (BitVec.ofNat 32 (k * 2 ^ 23 + r)) = r * (2 : ℚ) ^ ((k : Int) - 149) := by
  have ht : (BitVec.ofNat 32 (k * 2 ^ 23 + r)).toNat = k * 2 ^ 23 + r := by
    rw [BitVec.toNat_ofNat, Nat.mod_eq_of_lt (by omega)]
  have hneg : normNegative (BitVec.ofNat 32 (k * 2 ^ 23 + r)) = false := by
    simp only [normNegative, ht, decide_eq_false_iff_not]
    omega
  refine ⟨hneg, ?_, ?_⟩
  · simp only [normExponent, ht]
    omega
  · unfold normValue
    rw [hneg]
    rcases Nat.lt_or_ge r (2 ^ 24) with h | h
    · have e : normExponent (BitVec.ofNat 32 (k * 2 ^ 23 + r)) = k + 1 := by
        simp only [normExponent, ht]
        omega
      have g : normSignificand (BitVec.ofNat 32 (k * 2 ^ 23 + r)) = r := by
        rw [normSignificand, if_neg (by omega), ht]
        omega
      rw [g, e, max_eq_right (by omega)]
      simp only [Bool.false_eq_true, if_false, one_mul]
      congr 2
      push_cast
      ring
    · have hr : r = 2 ^ 24 := by omega
      subst hr
      have e : normExponent (BitVec.ofNat 32 (k * 2 ^ 23 + 2 ^ 24)) = k + 2 := by
        simp only [normExponent, ht]
        omega
      have g : normSignificand (BitVec.ofNat 32 (k * 2 ^ 23 + 2 ^ 24)) = 2 ^ 23 := by
        rw [normSignificand, if_neg (by omega), ht]
        omega
      rw [g, e, max_eq_right (by omega)]
      simp only [Bool.false_eq_true, if_false, one_mul]
      rw [show (((k + 2 : Nat) : Int) - 150) = ((k : Int) - 149) + 1 by push_cast; ring,
        zpow_add_one₀ (by norm_num)]
      push_cast
      ring

end Sys2Proof.Machine
end

