-- ==== Sys2Proof/Laws/PerInstr.lean ====
section
/-! SUPPORT. Per-instruction laws. Family `DecodedWellFormed`: the decoder gives an instruction only
if it is well-formed. -/

namespace Sys2Proof.Laws

/-- The bytes before the first terminator hold none, and the split loses nothing (R90, R92). -/
theorem splitTerminator_spec {bs p rest : List Byte} (h : splitTerminator bs = some (p, rest)) :
    terminator ∉ p ∧ bs = p ++ terminator :: rest := by
  induction bs generalizing p with
  | nil => cases h
  | cons b bs ih =>
    unfold splitTerminator at h
    split at h
    · next hb => cases h; exact ⟨by simp, by simp [hb]⟩
    · next hb =>
      split at h
      · cases h
      · next q r hq =>
        cases h
        obtain ⟨h1, h2⟩ := ih hq
        exact ⟨by simp [h1, Ne.symm hb], by simp [h2]⟩

/-- A payload without a terminator, then a terminator, splits there. -/
theorem splitTerminator_append {p rest : List Byte} (h : terminator ∉ p) :
    splitTerminator (p ++ terminator :: rest) = some (p, rest) := by
  induction p with
  | nil => simp [splitTerminator]
  | cons b p ih =>
    simp only [List.mem_cons, not_or] at h
    rw [List.cons_append, splitTerminator, if_neg (Ne.symm h.1), ih h.2]

theorem payloadWellFormed_iff (p : List Byte) :
    payloadWellFormed p = true ↔ terminator ∉ p := by
  simp [payloadWellFormed]

/-- A tag outside the six known ones classifies as `Unknown`, and no other does (R141). -/
theorem classify_unknown_iff (b : Byte) : classify b = .unknown ↔ knownTags.contains b = false := by
  unfold classify
  by_cases h1 : b = 0x76#8
  · subst h1; decide
  by_cases h2 : b = 0x6B#8
  · subst h2; decide
  by_cases h3 : b = 0x64#8
  · subst h3; decide
  by_cases h4 : b = 0x6D#8
  · subst h4; decide
  by_cases h5 : b = 0x7A#8
  · subst h5; decide
  by_cases h6 : b = 0x71#8
  · subst h6; decide
  simp [h1, h2, h3, h4, h5, h6, knownTags]

/-- The frame of a tag and a payload without a terminator is a well-formed instruction. -/
theorem frameInstr_wellFormed {tag : Byte} {p : List Byte} (h : terminator ∉ p) :
    (frameInstr tag p).wellFormed = true := by
  have hp := (payloadWellFormed_iff p).2 h
  unfold frameInstr
  cases hc : classify tag <;>
    simp only [Instr.wellFormed, List.head?_cons, List.tail_cons, hp, Bool.and_true]
  simpa using (classify_unknown_iff tag).1 hc

/-- The decoder gives only well-formed instructions. -/
theorem decode_wellFormed {r : Request} {i : Instr} (h : decode r = .ok i) :
    i.wellFormed = true := by
  cases r with
  | frame bytes =>
    simp only [decode] at h
    unfold decodeFrame at h
    split at h
    · cases h
    · split at h
      · cases h
      · next hs =>
        cases h
        exact frameInstr_wellFormed (splitTerminator_spec hs).1
      · cases h
  | command now bytes =>
    simp only [decode] at h
    unfold decodeCommand at h
    repeat' split at h
    all_goals first | cases h; rfl | cases h
  | sendReport now id =>
    simp only [decode] at h
    unfold decodeSendReport at h
    repeat' split at h
    all_goals first | cases h; rfl | cases h
  | hostReport now bytes =>
    simp only [decode] at h
    unfold decodeHostReport at h
    repeat' split at h
    all_goals first | cases h; rfl | cases h
  | character c => cases h; rfl
  | rxByte b => cases h; rfl
  | initTick now => cases h; rfl
  | hidTick now inbound => cases h; rfl
  | softReset => cases h; rfl
  | beep => cases h; rfl

/-- An instruction that the decoder gives is well-formed. -/
def DecodedWellFormed.Statement (i : Instr) : Prop :=
  ∀ r, decode r = .ok i → i.wellFormed = true

theorem DecodedWellFormed.version (p : List Byte) : DecodedWellFormed.Statement (.version p) :=
  fun _ h => decode_wellFormed h
theorem DecodedWellFormed.keypress (p : List Byte) : DecodedWellFormed.Statement (.keypress p) :=
  fun _ h => decode_wellFormed h
theorem DecodedWellFormed.posrot (p : List Byte) : DecodedWellFormed.Statement (.posrot p) :=
  fun _ h => decode_wellFormed h
theorem DecodedWellFormed.mode (p : List Byte) : DecodedWellFormed.Statement (.mode p) :=
  fun _ h => decode_wellFormed h
theorem DecodedWellFormed.zero (p : List Byte) : DecodedWellFormed.Statement (.zero p) :=
  fun _ h => decode_wellFormed h
theorem DecodedWellFormed.sens (p : List Byte) : DecodedWellFormed.Statement (.sens p) :=
  fun _ h => decode_wellFormed h
theorem DecodedWellFormed.unknown (tag : Byte) (bytes : List Byte) :
    DecodedWellFormed.Statement (.unknown tag bytes) :=
  fun _ h => decode_wellFormed h
theorem DecodedWellFormed.nibble (c : Byte) : DecodedWellFormed.Statement (.nibble c) :=
  fun _ h => decode_wellFormed h
theorem DecodedWellFormed.cmdReset (now : Time) : DecodedWellFormed.Statement (.cmdReset now) :=
  fun _ h => decode_wellFormed h
theorem DecodedWellFormed.cmdGetVersion (now : Time) : DecodedWellFormed.Statement (.cmdGetVersion now) :=
  fun _ h => decode_wellFormed h
theorem DecodedWellFormed.cmdButtonReporting (now : Time) : DecodedWellFormed.Statement (.cmdButtonReporting now) :=
  fun _ h => decode_wellFormed h
theorem DecodedWellFormed.cmdSetMode (now : Time) : DecodedWellFormed.Statement (.cmdSetMode now) :=
  fun _ h => decode_wellFormed h
theorem DecodedWellFormed.cmdZero (now : Time) : DecodedWellFormed.Statement (.cmdZero now) :=
  fun _ h => decode_wellFormed h
theorem DecodedWellFormed.cmdBeep : DecodedWellFormed.Statement (.cmdBeep) :=
  fun _ h => decode_wellFormed h
theorem DecodedWellFormed.reportTranslation (now : Time) : DecodedWellFormed.Statement (.reportTranslation now) :=
  fun _ h => decode_wellFormed h
theorem DecodedWellFormed.reportRotation (now : Time) : DecodedWellFormed.Statement (.reportRotation now) :=
  fun _ h => decode_wellFormed h
theorem DecodedWellFormed.reportButtons (now : Time) : DecodedWellFormed.Statement (.reportButtons now) :=
  fun _ h => decode_wellFormed h
theorem DecodedWellFormed.reportLed (l : LedReport) : DecodedWellFormed.Statement (.reportLed l) :=
  fun _ h => decode_wellFormed h
theorem DecodedWellFormed.rxByte (b : Byte) : DecodedWellFormed.Statement (.rxByte b) :=
  fun _ h => decode_wellFormed h
theorem DecodedWellFormed.initTick (now : Time) : DecodedWellFormed.Statement (.initTick now) :=
  fun _ h => decode_wellFormed h
theorem DecodedWellFormed.hidTick (now : Time) (inbound : Option (List Byte)) : DecodedWellFormed.Statement (.hidTick now inbound) :=
  fun _ h => decode_wellFormed h
theorem DecodedWellFormed.softReset : DecodedWellFormed.Statement (.softReset) :=
  fun _ h => decode_wellFormed h
theorem DecodedWellFormed.beep : DecodedWellFormed.Statement (.beep) :=
  fun _ h => decode_wellFormed h

end Sys2Proof.Laws
end

