-- ==== Sys2Proof/Tests/Slice0.lean ====
section
/-! SUPPORT. Tests. Expected values come from spec/95_test_vectors.md (its id in the comment) or are
worked from the rule named; no value is the model's own answer pasted back. Then one witness for
each statement that has hypotheses. -/

namespace Sys2Proof.Tests

open Sys2Proof.Machine

/-- Reset with the instance of 95_test_vectors.md. -/
abbrev s0 : State := State.reset

/-- The state after an instruction, if it goes on. -/
def after (i : Instr) (s : State) : Option State := nextState (exec i s)

/-- The state after a list of instructions, if all go on. -/
def afterAll (is : List Instr) (s : State) : Option State := nextState (runAll is s)

/-- The reason of a refusal. -/
def refusal (r : Result) : Option Refusal :=
  match r with
  | .next _ => none
  | .fault _ => none
  | .refused e => some e

/-- Payload "MAGELLAN". -/
def magellan : List Byte := [0x4D#8, 0x41#8, 0x47#8, 0x45#8, 0x4C#8, 0x4C#8, 0x41#8, 0x4E#8]

/-- "H5M<0<AHH000H000H000H000" (T43-20). -/
def posrotPayload : List Byte :=
  [0x48#8, 0x35#8, 0x4D#8, 0x3C#8, 0x30#8, 0x3C#8, 0x41#8, 0x48#8, 0x48#8, 0x30#8, 0x30#8, 0x30#8,
   0x48#8, 0x30#8, 0x30#8, 0x30#8, 0x48#8, 0x30#8, 0x30#8, 0x30#8, 0x48#8, 0x30#8, 0x30#8, 0x30#8]

/-! ### WellFormed: each check refuses its ill-formed term -/

theorem test_wf_vectors : Config.vectors.wellFormed = true := by decide
theorem test_wf_capacity_25 : { Config.vectors with rxCapacity := 25 }.wellFormed = true := by
  decide
theorem test_wf_capacity_24 : { Config.vectors with rxCapacity := 24 }.wellFormed = false := by
  decide
theorem test_wf_magic_empty : { Config.vectors with versionMagic := [] }.wellFormed = false := by
  decide
theorem test_wf_magic_terminator :
    { Config.vectors with versionMagic := [0x4D#8, 0x0D#8] }.wellFormed = false := by decide
theorem test_wf_magic_too_long :
    { Config.vectors with versionMagic := List.replicate 32 0x4D#8 }.wellFormed = false := by
  decide
theorem test_wf_alphabet_length :
    { Config.vectors with nibbleAlphabet := defaultAlphabet.take 15 }.wellFormed = false := by
  decide
theorem test_wf_alphabet_repeat :
    { Config.vectors with nibbleAlphabet := defaultAlphabet.set 4 0x35#8 }.wellFormed = false := by
  decide
theorem test_wf_alphabet_first :
    { Config.vectors with nibbleAlphabet := defaultAlphabet.set 3 0x20#8 }.wellFormed = false := by
  decide
theorem test_wf_alphabet_last :
    { Config.vectors with nibbleAlphabet := defaultAlphabet.set 15 0x20#8 }.wellFormed = false := by
  decide
theorem test_wf_buttons_8 : { Config.vectors with buttonCount := 8 }.wellFormed = false := by
  decide
theorem test_wf_buttons_17 : { Config.vectors with buttonCount := 17 }.wellFormed = false := by
  decide
theorem test_wf_cal_min :
    { Config.vectors with cal := { Config.vectors.cal with u := ⟨0#16, 1#16⟩ } }.wellFormed =
      false := by decide
theorem test_wf_cal_max :
    { Config.vectors with cal := { Config.vectors.cal with w := ⟨0xFFFF#16, 0#16⟩ } }.wellFormed =
      false := by decide

theorem test_wf_payload_terminator :
    [Instr.version [0x0D#8], .keypress [0x41#8, 0x0D#8, 0x41#8], .posrot [0x0D#8], .mode [0x0D#8],
      .zero [0x0D#8], .sens [0x41#8, 0x0D#8], .unknown 0x58#8 [0x58#8, 0x0D#8]].all
      (fun i => !i.wellFormed) = true := by decide
theorem test_wf_known_tag_is_not_unknown :
    knownTags.all (fun t => !(Instr.unknown t [t]).wellFormed) = true := by decide
theorem test_wf_unknown_begins_with_its_tag :
    (Instr.unknown 0x58#8 [0x59#8]).wellFormed = false ∧
    (Instr.unknown 0x58#8 []).wellFormed = false ∧
    (Instr.unknown 0x58#8 [0x58#8]).wellFormed = true := by decide

/-! ### Decode: words written out from R91, R93, R101, R69, R105 -/

theorem test_decode_version :
    decode (.frame [0x76#8, 0x4D#8, 0x41#8, 0x0D#8]) = .ok (.version [0x4D#8, 0x41#8]) := by decide
theorem test_decode_keypress :
    decode (.frame [0x6B#8, 0x41#8, 0x30#8, 0x42#8, 0x0D#8]) =
      .ok (.keypress [0x41#8, 0x30#8, 0x42#8]) := by decide
theorem test_decode_posrot :
    decode (.frame ([0x64#8] ++ posrotPayload ++ [0x0D#8])) = .ok (.posrot posrotPayload) := by
  decide
theorem test_decode_mode : decode (.frame [0x6D#8, 0x33#8, 0x0D#8]) = .ok (.mode [0x33#8]) := by
  decide
theorem test_decode_zero : decode (.frame [0x7A#8, 0x0D#8]) = .ok (.zero []) := by decide
theorem test_decode_sens :
    decode (.frame [0x71#8, 0x33#8, 0x47#8, 0x0D#8]) = .ok (.sens [0x33#8, 0x47#8]) := by decide
/-- T41-04: an upper-case V is no version tag. -/
theorem test_decode_unknown :
    decode (.frame [0x56#8, 0x51#8, 0x0D#8]) = .ok (.unknown 0x56#8 [0x56#8, 0x51#8]) := by decide
/-- T41-11 and R148: a stray terminator is the tag of the frame after it. -/
theorem test_decode_unknown_terminator :
    decode (.frame [0x0D#8, 0x6B#8, 0x41#8, 0x0D#8]) =
      .ok (.unknown 0x0D#8 [0x0D#8, 0x6B#8, 0x41#8]) := by decide
theorem test_decode_nibble : decode (.character 0x3F#8) = .ok (.nibble 0x3F#8) := by decide
theorem test_decode_cmd_reset :
    decode (.command 1#32 [0x0D#8, 0x76#8, 0x74#8, 0x0D#8]) = .ok (.cmdReset 1#32) := by decide
theorem test_decode_cmd_get_version :
    decode (.command 2#32 [0x76#8, 0x51#8, 0x0D#8]) = .ok (.cmdGetVersion 2#32) := by decide
theorem test_decode_cmd_button_reporting :
    decode (.command 3#32 [0x6B#8, 0x51#8, 0x0D#8]) = .ok (.cmdButtonReporting 3#32) := by decide
theorem test_decode_cmd_set_mode :
    decode (.command 4#32 [0x6D#8, 0x33#8, 0x0D#8]) = .ok (.cmdSetMode 4#32) := by decide
theorem test_decode_cmd_zero :
    decode (.command 5#32 [0x7A#8, 0x0D#8]) = .ok (.cmdZero 5#32) := by decide
theorem test_decode_cmd_beep :
    decode (.command 6#32 [0x62#8, 0x0D#8]) = .ok .cmdBeep := by decide
theorem test_decode_reports :
    decode (.sendReport 9#32 1#8) = .ok (.reportTranslation 9#32) ∧
    decode (.sendReport 9#32 2#8) = .ok (.reportRotation 9#32) ∧
    decode (.sendReport 9#32 3#8) = .ok (.reportButtons 9#32) ∧
    decode (.hostReport 9#32 [0x04#8, 0x01#8]) = .ok (.reportLed ⟨9#32, 1#8⟩) := by decide
theorem test_decode_operations :
    decode (.rxByte 0xFF#8) = .ok (.rxByte 0xFF#8) ∧
    decode (.initTick 1#32) = .ok (.initTick 1#32) ∧
    decode (.hidTick 1#32 (some [4#8, 1#8])) = .ok (.hidTick 1#32 (some [4#8, 1#8])) ∧
    decode .softReset = .ok .softReset ∧ decode .beep = .ok .beep := by decide
theorem test_decode_rejects :
    decode (.frame []) = .error .noTag ∧
    decode (.frame [0x6B#8, 0x41#8]) = .error .unterminatedFrame ∧
    decode (.frame [0x7A#8, 0x0D#8, 0x00#8]) = .error .bytesAfterTerminator ∧
    decode (.command 0#32 [0x7A#8]) = .error .notACommand ∧
    decode (.sendReport 0#32 4#8) = .error (.noSuchReport 4#8) ∧
    decode (.hostReport 0#32 [0x02#8, 0x01#8]) = .error .notAnLedReport ∧
    decode (.hostReport 0#32 [0x04#8]) = .error .notAnLedReport := by decide
/-- The bit numbering of the opcode table: byte 0 lowest, a command's bytes first byte highest. -/
theorem test_decode_table_words :
    decodeTableWord 8 0x6B = some (.keypress [0#8, 0#8, 0#8]) ∧
    decodeTableWord 16 0x620D = some .cmdBeep ∧
    decodeTableWord 16 0x0104 = some (.reportLed ⟨0#32, 1#8⟩) := by decide

/-! ### One step each -/

/-- T43-01, T43-06. -/
theorem test_version_acknowledges :
    (after (.version (magellan ++ [0x20#8, 0x54#8])) { s0 with initState := .waitVersion }).map
      (fun t => (t.initState, t.ret)) =
      some (.requestButtonReporting, .rx (some ⟨.version, magellan ++ [0x20#8, 0x54#8]⟩) true) := by
  decide
/-- T43-05: the comparison is case-sensitive. -/
theorem test_version_mismatch :
    (after (.version (magellan.map (· ||| 0x20#8))) { s0 with initState := .waitVersion }).map
      (fun t => (t.initState, t.diag)) = some (.waitVersion, [.versionMismatch]) := by
  decide
/-- T43-14. -/
theorem test_keypress_bits :
    (after (.keypress [0x41#8, 0x30#8, 0x42#8]) s0).map (·.buttons) = some 0x201#16 := by
  decide
/-- T43-17 with 9 buttons. -/
theorem test_keypress_cut :
    (after (.keypress [0x3F#8, 0x3F#8, 0x3F#8])
      { s0 with cfg := { Config.vectors with buttonCount := 9 } }).map (·.buttons) =
      some 0x1FF#16 := by decide
/-- T43-20. -/
theorem test_posrot :
    (after (.posrot posrotPayload) s0).map (·.raw) =
      some { x := 1500#16, y := 0#16, z := 0xFC18#16, u := 0#16, v := 0#16, w := 0#16 } := by
  decide
/-- T43-21: 23 characters. -/
theorem test_posrot_short :
    (after (.posrot (posrotPayload.take 23)) { s0 with raw := Axes.all 7#16 }).map
      (fun t => (t.raw.x, t.rxLen, t.diag)) = some (7#16, 23, [.malformedPayload]) := by decide
/-- T43-09. -/
theorem test_mode_acknowledges :
    (after (.mode [0x33#8]) { s0 with initState := .waitSetMode }).map
      (fun t => (t.mode, t.initState)) = some (3#4, .requestZero) := by decide
/-- T43-10. -/
theorem test_mode_other :
    (after (.mode [0x41#8]) { s0 with initState := .waitSetMode }).map
      (fun t => (t.mode, t.initState)) = some (1#4, .waitSetMode) := by decide
/-- T43-27. -/
theorem test_zero_acknowledges :
    (after (.zero [0x7A#8, 0x7A#8]) { s0 with initState := .waitZero }).map
      (fun t => (t.initState, ready t)) = some (.done, true) := by decide
/-- T43-26. -/
theorem test_zero_early :
    (after (.zero []) { s0 with initState := .requestZero }).map
      (fun t => (t.initState, t.ret)) = some (.requestZero, .rx (some ⟨.zero, []⟩) false) := by
  decide
/-- T43-13. -/
theorem test_sens :
    (after (.sens [0x33#8, 0x47#8]) s0).map (fun t => (t.sensT, t.sensR)) = some (3#4, 7#4) := by
  decide
/-- T43-28. -/
theorem test_unknown :
    (after (.unknown 0x58#8 [0x58#8, 0x74#8]) s0).map (·.ret) =
      some (.rx (some ⟨.unknown, [0x74#8]⟩) false) := by
  decide
/-- T40-08, T40-21. -/
theorem test_nibble :
    (after (.nibble 0x47#8) s0).map (·.ret) = some (.nibble 7#4) ∧
    (after (.nibble 0x38#8) s0).map (·.ret) = some (.nibble 0#4) := by decide
/-- T40-33, T40-36, T40-44. -/
theorem test_signed_words :
    wordAt Config.vectors [0x30#8, 0x3C#8, 0x41#8, 0x48#8] 0 = BitVec.ofInt 16 (-1000) ∧
    wordAt Config.vectors [0x3F#8, 0x30#8, 0x30#8, 0x30#8] 0 = 0#16 ∧
    wordAt Config.vectors [0x30#8, 0x3F#8, 0x3F#8, 0x4E#8] 0 = BitVec.ofInt 16 (-2) := by
  decide
/-- R112's table: the encoder of the test bench. -/
theorem test_enc_word :
    encWord Config.vectors 100 = [0x48#8, 0x30#8, 0x36#8, 0x44#8] ∧
    encWord Config.vectors (-500) = [0x30#8, 0x4E#8, 0x30#8, 0x3C#8] := by decide
/-- T42-02. -/
theorem test_cmd_reset :
    (after (.cmdReset 123456#32) s0).map (fun t => (t.uartTx, t.gateStart, t.gateLen)) =
      some ([0x0D#8, 0x76#8, 0x74#8, 0x0D#8], 123456#32, 500) := by decide
/-- T42-04. -/
theorem test_cmd_get_version :
    (after (.cmdGetVersion 500#32)
      { s0 with initState := .requestVersion, gateLen := 500 }).map
      (fun t => (t.uartTx, t.initState)) = some ([0x76#8, 0x51#8, 0x0D#8], .waitVersion) := by
  decide
/-- T42-06. -/
theorem test_cmd_button_reporting :
    (after (.cmdButtonReporting 520#32) { s0 with initState := .requestButtonReporting }).map
      (fun t => (t.uartTx, t.gateStart, t.initState)) =
      some ([0x6B#8, 0x51#8, 0x0D#8], 520#32, .requestSetMode) := by decide
/-- T42-07. -/
theorem test_cmd_set_mode :
    (after (.cmdSetMode 1020#32)
      { s0 with initState := .requestSetMode, gateStart := 520#32, gateLen := 500 }).map
      (fun t => (t.uartTx, t.initState)) = some ([0x6D#8, 0x33#8, 0x0D#8], .waitSetMode) := by
  decide
/-- T42-08. -/
theorem test_cmd_zero :
    (after (.cmdZero 1030#32) { s0 with initState := .requestZero }).map
      (fun t => (t.uartTx, t.initState)) = some ([0x7A#8, 0x0D#8], .waitZero) := by decide
/-- T46-01. -/
theorem test_cmd_beep : (after .cmdBeep s0).map (·.uartTx) = some [0x62#8, 0x0D#8] := by
  decide
/-- T46-01. -/
theorem test_beep : (after .beep s0).map (·.uartTx) = some [0x62#8, 0x0D#8] := by decide

/-- `x` of `submit` at 0.5, ready to send report 1. -/
def halfX : State :=
  { s0 with
    hidState := .sendTranslation
    submit := ⟨{ Axes.all 0#32 with x := 0x3F000000#32 }, 0x201#16⟩ }

/-- T45-03. -/
theorem test_report_translation :
    (after (.reportTranslation 8#32) halfX).map (fun t => (t.usbTx, t.lastSendTime)) =
      some ([⟨1#8, [0x90#8, 0x01#8, 0#8, 0#8, 0#8, 0#8]⟩], 8#32) := by decide
/-- T45-05. -/
theorem test_report_rotation :
    (after (.reportRotation 16#32)
      { s0 with hidState := .sendRotation, lastSendTime := 8#32 }).map (·.usbTx) =
      some [⟨2#8, [0#8, 0#8, 0#8, 0#8, 0#8, 0#8]⟩] := by decide
/-- T45-16. -/
theorem test_report_buttons :
    (after (.reportButtons 24#32)
      { halfX with hidState := .sendButtons, lastSendTime := 16#32 }).map
      (fun t => (t.usbTx, t.hidState)) = some ([⟨3#8, [0x01#8, 0x02#8]⟩], .idle) := by
  decide
/-- T45-12, T45-13. -/
theorem test_report_led :
    (after (.reportLed ⟨0#32, 1#8⟩) s0).map (·.led) = some true ∧
    (after (.reportLed ⟨0#32, 0#8⟩) { s0 with led := true }).map (·.led) = some false := by decide
/-- T41-02, T43-25: two bytes. -/
theorem test_rx_byte_zero_frame :
    (afterAll [.rxByte 0x7A#8, .rxByte 0x0D#8] { s0 with initState := .waitZero }).map
      (fun t => (t.ret, t.initState, Memory.read t.rxBuf 0)) =
      some (.rx (some ⟨.zero, []⟩) true, .done, 0#8) := by decide
/-- T41-07's last payload byte. -/
theorem test_rx_byte_overflow :
    (after (.rxByte 0x78#8) { s0 with rxState := .readingMessage, rxLen := 31 }).map
      (fun t => (t.rxState, t.rxLen, t.diag)) =
      some (.drainingOverflow, 31, [.frameOverflow]) := by decide
/-- T42-10. -/
theorem test_init_tick_stall :
    (after (.initTick 5001#32) { s0 with initState := .waitVersion }).map
      (fun t => (t.initState, t.lastResetTime, t.diag)) =
      some (.requestVersion, 5001#32, [.handshakeStall]) := by decide
/-- T42-17: elapsed time wraps; exactly 5000 ms is no stall. -/
theorem test_init_tick_wraps :
    (after (.initTick 0x388#32)
      { s0 with initState := .waitVersion, lastResetTime := 0xFFFFF000#32 }).map
      (fun t => (t.initState, t.ret)) = some (.waitVersion, .command none) := by decide
/-- T45-01. -/
theorem test_hid_tick_latches :
    (after (.hidTick 0#32 none) { s0 with raw := { Axes.all 0#16 with x := 1500#16 } }).map
      (fun t => (t.hidState, t.submit.axes.x, t.usbTx)) =
      some (.sendTranslation, 0x3F000000#32, []) := by decide
/-- T45-14: a report that is no LED report is consumed without effect. -/
theorem test_hid_tick_ignores :
    [some [0x02#8, 0x01#8], some [0x04#8], some [0x04#8, 0x01#8, 0x00#8], none].all
      (fun r => (after (.hidTick 1#32 r) { s0 with led := true }).map (·.led) = some true) =
      true := by decide
/-- T46-02. -/
theorem test_soft_reset :
    (after .softReset { s0 with
      initState := .done, raw := Axes.all 1500#16, buttons := 1#16, sensT := 3#4, mode := 3#4
      gateStart := 520#32, gateLen := 500 }).map
      (fun t => (t.initState, t.raw, t.buttons, t.mode, t.gateLen)) =
      some (.reset, Axes.all 0#16, 0#16, 0#4, 0) := by decide
/-- T44-17, T44-18: the edge of `int16`. -/
theorem test_phys_map_edge :
    physMap (normalize ⟨BitVec.ofInt 16 (-100), 100#16⟩ 4095#16) = some 32760#16 ∧
    physMap (normalize ⟨BitVec.ofInt 16 (-100), 100#16⟩ (BitVec.ofInt 16 (-4096))) = none := by
  decide
/-- T44-16: extreme calibration. -/
theorem test_normalize_extreme :
    normalize ⟨BitVec.ofInt 16 (-32768), 32767#16⟩ 1#16 = 0x38000100#32 := by decide

/-! ### Step, and the stops -/

theorem test_step_runs_fetched_word :
    (nextState (step (s0.withFetchWord 32 0x0D76740D))).map (fun t => (t.uartTx, t.schedule)) =
      some ([0x0D#8, 0x76#8, 0x74#8, 0x0D#8], []) := by decide
theorem test_step_idles : (nextState (step s0)).map (·.schedule) = some [] := by decide
/-- R283: bytes that are not one whole frame are received like any others. -/
theorem test_step_receives_loose_bytes :
    (nextState (step { s0 with schedule := [.frame [0x7A#8], .beep] })).map
      (fun t => (t.rxState, t.rxType, t.schedule)) =
      some (.readingMessage, .zero, [.beep]) := by decide
/-- T60-02: the bytes of a frame after the fragment "kA" complete it: R73 makes them "A0B". -/
theorem test_step_frame_continues_a_fragment :
    (nextState (step { s0 with schedule := [.frame [0x6B#8, 0x41#8]] })).bind (fun s =>
      (nextState (step { s with schedule := [.frame [0x30#8, 0x42#8, 0x0D#8]] })).map
        (fun t => (t.rxState, t.buttons, t.ret))) =
      some (.idle, 0x201#16, .rx (some ⟨.keypress, [0x41#8, 0x30#8, 0x42#8]⟩) true) := by decide
/-- R144: the bytes of a frame received while draining are discarded. -/
theorem test_step_frame_is_drained :
    (nextState (step { s0 with
      rxState := .drainingOverflow, rxLen := 31, initState := .waitZero
      schedule := [.frame [0x7A#8, 0x0D#8]] })).map
      (fun t => (t.rxState, t.initState, t.ret)) = some (.idle, .waitZero, .rx none false) := by
  decide
/-- R111, T45-14: a host report that is no LED report is consumed. -/
theorem test_step_consumes_other_reports :
    (nextState (step { s0 with led := true, schedule := [.hostReport 0#32 [2#8, 1#8]] })).map
      (fun t => (t.led, t.schedule)) = some (true, []) := by decide
/-- U14: an index that nothing has written holds any value. -/
theorem test_unwritten_byte_is_free :
    (after (.rxByte 0x0D#8) { s0 with rxState := .readingMessage, rxLen := 1 }).map (·.ret) =
      some (.rx (some ⟨.unknown, [Config.freeByte 0]⟩) false) := rfl
theorem test_write_outside_the_buffer_is_refused :
    refusal (exec (.rxByte 0x0D#8) { s0 with rxState := .readingMessage, rxLen := 32 }) =
      some (.rxBufOutOfRange 32) := by decide

/-! ### Witnesses: for each statement with hypotheses, states and operands that meet them -/

theorem test_witness_EncodedInstructionDecodes :
    (Instr.unknown 0x0D#8 [0x0D#8]).wellFormed = true ∧ (Instr.posrot posrotPayload).wellFormed = true := by
  decide
theorem test_witness_DecodedRequestIsItsEncoding :
    decode (.hostReport 5#32 [4#8, 0xFF#8]) = .ok (.reportLed ⟨5#32, 0xFF#8⟩) ∧
    decode (.command 7#32 [0x62#8, 0x0D#8]) = .ok .cmdBeep := by decide
theorem test_witness_TagSelectsMessageType :
    (0x56#8 : Byte) ∉ knownTags ∧ (0x0D#8 : Byte) ∉ knownTags := by decide
theorem test_witness_StepRunsTheDecodedInstruction :
    decode (tableRequest 16 0x620D) = .ok .cmdBeep ∧
    (s0.withFetchWord 16 0x620D).schedule = tableRequest 16 0x620D :: [] ∧
    decode (.frame [0x7A#8]) = .error .unterminatedFrame ∧ s0.schedule = [] ∧
    decode (.frame []) = .error .noTag ∧
    decode (.frame [0x7A#8, 0x0D#8, 0x7A#8]) = .error .bytesAfterTerminator ∧
    decode (.hostReport 0#32 [4#8]) = .error .notAnLedReport ∧
    decode (.hostReport 0#32 [3#8, 1#8]) = .error .notAnLedReport ∧
    decode (.command 0#32 [0x62#8]) = .error .notACommand ∧
    decode (.sendReport 0#32 4#8) = .error (.noSuchReport 4#8) ∧ s0.cfg.wellFormed = true := by
  decide
theorem test_witness_IllFormedConfigurationIsRefused :
    ({ s0 with cfg := { Config.vectors with rxCapacity := 24 } } : State).cfg.wellFormed = false := by
  decide
theorem test_witness_ConfigurationIsNeverWritten : (after .softReset s0).isSome = true := by
  decide
theorem test_witness_NibbleCharacterDecodes :
    s0.cfg.wellFormed = true ∧ s0.cfg.nibbleAlphabet[0]? = some 0x30#8 ∧
    s0.cfg.nibbleAlphabet[15]? = some 0x3F#8 ∧ (0x31#8 : Byte) ∉ s0.cfg.nibbleAlphabet := by decide
theorem test_witness_SignedWordLaw :
    (wordAt Config.vectors (encWord Config.vectors (-4096)) 0).toInt = -4096 ∧
    (wordAt Config.vectors (encWord Config.vectors 4095) 0).toInt = 4095 ∧
    (wordAt Config.vectors (encWord Config.vectors (-1)) 0).toInt = -1 := by decide
theorem test_witness_KeypressSetsTheButtonMask :
    s0.cfg.wellFormed = true ∧ s0.rxState = .idle ∧
    (0x0D#8 : Byte) ∉ [0x3F#8, 0x3F#8, 0x3F#8] ∧
    (after (.keypress [0x3F#8, 0x3F#8, 0x3F#8]) s0).map (·.buttons) = some 0xFFF#16 ∧
    (after (.keypress [0x41#8, 0x30#8]) s0).map (·.ret) =
      some (.rx (some ⟨.keypress, [0x41#8, 0x30#8]⟩) false) ∧
    (after (.keypress (List.replicate 32 0x30#8)) s0).map (·.ret) = some (.rx none false) := by
  decide
theorem test_witness_PositionRotationSetsSixAxes :
    posrotPayload = [0x48#8, 0x35#8, 0x4D#8, 0x3C#8] ++ [0x30#8, 0x3C#8, 0x41#8, 0x48#8] ++
      [0x48#8, 0x30#8, 0x30#8, 0x30#8] ++ [0x48#8, 0x30#8, 0x30#8, 0x30#8] ++
      [0x48#8, 0x30#8, 0x30#8, 0x30#8] ++ [0x48#8, 0x30#8, 0x30#8, 0x30#8] ∧
    s0.cfg.wellFormed = true ∧ s0.rxState = .idle ∧ (0x0D#8 : Byte) ∉ posrotPayload ∧
    (after (.posrot (posrotPayload ++ [0x30#8])) s0).map (·.rxLen) = some 25 := by
  decide
theorem test_witness_ModeReportIsStored :
    ({ s0 with initState := .waitSetMode } : State).initState = .waitSetMode ∧
    decodeNibble s0.cfg 0x33#8 = 3#4 ∧ decodeNibble s0.cfg 0x42#8 ≠ 3#4 ∧
    s0.initState ≠ .waitSetMode ∧
    s0.cfg.wellFormed = true ∧ s0.rxState = .idle ∧ (0x0D#8 : Byte) ∉ [0x33#8] ∧
    (after (.mode []) s0).map (·.ret) = some (.rx (some ⟨.modeChange, []⟩) false) ∧
    (after (.mode [0x33#8, 0x33#8]) s0).map (·.ret) =
      some (.rx (some ⟨.modeChange, [0x33#8, 0x33#8]⟩) false) := by decide
theorem test_witness_SensitivityIsStored :
    (after (.sens [0x3F#8, 0x30#8]) s0).map (·.sensT) = some 15#4 ∧
    s0.cfg.wellFormed = true ∧ s0.rxState = .idle ∧ (0x0D#8 : Byte) ∉ [0x3F#8, 0x30#8] ∧
    (after (.sens [0x33#8]) s0).map (·.ret) =
      some (.rx (some ⟨.sensitivityChange, [0x33#8]⟩) false) := by decide
theorem test_witness_ZeroFrameAcknowledges :
    (List.replicate 31 0x7A#8).length ≤ s0.cfg.rxCapacity - 1 ∧
    (after (.zero (List.replicate 31 0x7A#8)) { s0 with initState := .waitZero }).map (·.initState) =
      some .done ∧ s0.initState ≠ .waitZero ∧ s0.rxState = .idle ∧
    (0x0D#8 : Byte) ∉ List.replicate 31 0x7A#8 := by decide
theorem test_witness_VersionFrameAcknowledges :
    s0.cfg.wellFormed = true ∧ s0.rxState = .idle ∧
    ([0x78#8, 0x78#8] ++ magellan).length ≤ s0.cfg.rxCapacity - 1 ∧
    (0x0D#8 : Byte) ∉ [0x78#8, 0x78#8] ++ magellan ∧
    2 + s0.cfg.versionMagic.length ≤ ([0x78#8, 0x78#8] ++ magellan).length ∧
    (∀ j < s0.cfg.versionMagic.length,
      ([0x78#8, 0x78#8] ++ magellan)[2 + j]? = s0.cfg.versionMagic[j]?) ∧
    ¬(0 + s0.cfg.versionMagic.length ≤ (magellan.take 7).length) := by decide
theorem test_witness_UnknownFrameIsIgnored :
    s0.cfg.wellFormed = true ∧ s0.rxState = .idle ∧ classify 0x0D#8 = .unknown ∧
    (0x0D#8 : Byte) ∉ List.replicate 31 0x78#8 ∧
    (List.replicate 31 0x78#8).length ≤ s0.cfg.rxCapacity - 1 := by decide
theorem test_witness_WrongLengthIsNoOp :
    s0.cfg.wellFormed = true ∧ s0.rxState = .idle ∧
    (Instr.posrot (posrotPayload.take 23)).wellFormed = true ∧
    frameMessage (.posrot (posrotPayload.take 23)) =
      some ⟨.positionRotation, posrotPayload.take 23⟩ ∧
    requiredLength .positionRotation = some 24 ∧ (posrotPayload.take 23).length ≠ 24 ∧
    (posrotPayload.take 23).length ≤ s0.cfg.rxCapacity - 1 := by decide
theorem test_witness_OverlongFrameIsDropped :
    s0.cfg.wellFormed = true ∧ s0.rxState = .idle ∧
    (Instr.version (List.replicate 32 0x78#8)).wellFormed = true ∧
    frameMessage (.version (List.replicate 32 0x78#8)) =
      some ⟨.version, List.replicate 32 0x78#8⟩ ∧
    s0.cfg.rxCapacity - 1 < (List.replicate 32 0x78#8).length ∧
    (after (.version (List.replicate 32 0x78#8)) s0).map (·.diag) = some [.frameOverflow] := by
  decide
theorem test_witness_ResetStepSendsReset : s0.cfg.wellFormed = true ∧ s0.initState = .reset := by
  decide

/-- In a state of the handshake, the gate armed at 0 for 500 ms, the last Reset step at 0. -/
abbrev inInit (i : InitState) : State := { s0 with initState := i, gateLen := 500 }

theorem test_witness_RequestVersionStep :
    (after (.initTick 500#32) (inInit .requestVersion)).map (·.initState) = some .waitVersion ∧
    (after (.initTick 499#32) (inInit .requestVersion)).map (·.ret) = some (.command none) ∧
    (after (.cmdGetVersion 5000#32) (inInit .requestVersion)).map (·.initState) =
      some .waitVersion := by decide
theorem test_witness_RequestButtonReportingStep :
    (after (.cmdButtonReporting 5000#32) (inInit .requestButtonReporting)).map (·.initState) =
      some .requestSetMode := by decide
theorem test_witness_RequestSetModeStep :
    (after (.initTick 5000#32) (inInit .requestSetMode)).map (·.initState) = some .waitSetMode ∧
    (after (.cmdSetMode 499#32) (inInit .requestSetMode)).map (·.ret) = some (.command none) := by
  decide
theorem test_witness_RequestZeroStep :
    (after (.initTick 5000#32) (inInit .requestZero)).map (·.initState) = some .waitZero := by
  decide
theorem test_witness_WaitingTicksDoNothing :
    (after (.initTick 0xFFFFFFFF#32) (inInit .done)).map (·.ret) = some (.command none) ∧
    (after (.initTick 5000#32) (inInit .waitVersion)).map (·.ret) = some (.command none) ∧
    (after (.initTick 5000#32) (inInit .waitSetMode)).map (·.ret) = some (.command none) ∧
    (after (.initTick 5000#32) (inInit .waitZero)).map (·.ret) = some (.command none) := by
  decide
theorem test_witness_StallRestartsTheHandshake :
    (inInit .requestSetMode).initState ≠ .reset ∧ (inInit .requestSetMode).initState ≠ .done ∧
    5000 < (5001#32 - (inInit .requestSetMode).lastResetTime).toNat ∧
    (after (.cmdReset 5001#32) (inInit .requestSetMode)).map (·.initState) =
      some .requestVersion := by decide
theorem test_witness_UnselectedCommandDoesNothing :
    (after (.cmdZero 5001#32) (inInit .requestZero)).map (·.ret) = some (.command none) ∧
    (after (.cmdReset 5000#32) (inInit .requestZero)).map (·.ret) = some (.command none) ∧
    (after (.cmdGetVersion 5001#32) (inInit .done)).map (·.ret) = some (.command none) ∧
    (after (.cmdSetMode 5001#32) (inInit .reset)).map (·.ret) = some (.command none) := by
  decide
theorem test_witness_BeepTransmitsBeep : s0.cfg.wellFormed = true := by decide
theorem test_witness_IdleTickLatchesADirtySnapshot :
    s0.hidState = .idle ∧ live s0 = s0.submit ∧
    live { s0 with buttons := 1#16 } ≠ ({ s0 with buttons := 1#16 } : State).submit := by
  decide
theorem test_witness_TranslationReportIsSent :
    halfX.cfg.wellFormed = true ∧ halfX.hidState = .sendTranslation ∧
    8 ≤ (8#32 - halfX.lastSendTime).toNat ∧ (7#32 - halfX.lastSendTime).toNat < 8 ∧
    physMap halfX.submit.axes.x = some 400#16 := by decide
theorem test_witness_RotationReportIsSent :
    (after (.hidTick 8#32 none) { halfX with hidState := .sendRotation }).map (·.hidState) =
      some .sendButtons ∧
    (after (.reportRotation 7#32) { halfX with hidState := .sendRotation }).map (·.ret) =
      some (.report none) := by decide
theorem test_witness_ButtonReportIsSent :
    (after (.hidTick 8#32 none) { halfX with hidState := .sendButtons }).map (·.usbTx) =
      some [⟨3#8, [0x01#8, 0x02#8]⟩] ∧
    (after (.reportButtons 7#32) { halfX with hidState := .sendButtons }).map (·.ret) =
      some (.report none) := by decide
theorem test_witness_UnselectedReportDoesNothing :
    s0.cfg.wellFormed = true ∧ s0.hidState ≠ .sendTranslation ∧ s0.hidState ≠ .sendRotation ∧
    s0.hidState ≠ .sendButtons := by decide
theorem test_witness_LedReportSetsTheFlag :
    (after (.hidTick 1#32 none) s0).isSome = true ∧ s0.cfg.wellFormed = true ∧
    (⟨1#32, 2#8⟩ : LedReport).value ≠ 0#8 ∧ (⟨1#32, 2#8⟩ : LedReport).value ≠ 1#8 ∧ (2#8 : Byte) ≠ 0#8 ∧ (2#8 : Byte) ≠ 1#8 ∧
    ([0x04#8] : List Byte).length ≠ 2 ∧ ([0x02#8, 0x01#8] : List Byte).head? ≠ some 4#8 := by
  decide
theorem test_witness_IdleByteIsATag :
    s0.rxState = .idle ∧
    (after (.rxByte 0x0D#8) s0).map (fun t => (t.rxType, t.rxState)) =
      some (.unknown, .readingMessage) := by decide

/-- A frame of type `Keypress` being read, "A0" received (T46-03). -/
def readingA0 : State :=
  { s0 with
    rxState := .readingMessage, rxType := .keypress, rxLen := 2
    rxBuf := [(0, 0x41#8), (1, 0x30#8)] }

/-- The same buffer after an overlong frame. -/
def drainingA0 : State := { readingA0 with rxState := .drainingOverflow, rxLen := 31 }

theorem test_witness_PayloadByteIsStored :
    readingA0.rxState = .readingMessage ∧ (0x42#8 : Byte) ≠ 0x0D#8 ∧
    readingA0.rxLen < readingA0.cfg.rxCapacity - 1 ∧
    ({ readingA0 with rxLen := 30 } : State).rxLen < s0.cfg.rxCapacity - 1 ∧
    s0.cfg.rxCapacity - 1 ≤ ({ readingA0 with rxLen := 31 } : State).rxLen := by decide
theorem test_witness_TerminatorCompletesTheFrame :
    readingA0.rxState = .readingMessage ∧ readingA0.rxLen ≤ readingA0.cfg.rxCapacity - 1 ∧
    ([0x41#8, 0x30#8] : List Byte).length = readingA0.rxLen ∧
    (∀ k < readingA0.rxLen,
      ([0x41#8, 0x30#8] : List Byte)[k]? = some (Memory.read readingA0.rxBuf k)) ∧
    (afterAll [.rxByte 0x42#8, .rxByte 0x0D#8] readingA0).map (·.buttons) = some 0x201#16 := by
  decide
theorem test_witness_DrainingDiscardsBytes :
    (after (.rxByte 0x0D#8) drainingA0).map (·.rxState) = some .idle ∧
    (after (.rxByte 0x6B#8) drainingA0).map (·.rxState) = some .drainingOverflow := by
  decide
theorem test_witness_FrameIsReceivedByteByByte :
    frameMessage (.zero (List.replicate 28 0x78#8)) ≠ none ∧ (0x7A#8 : Byte) ≠ 0x0D#8 ∧
    receivedBytes (.zero (List.replicate 28 0x78#8)) =
      0x7A#8 :: (List.replicate 28 0x78#8 ++ [0x0D#8]) ∧
    (0x0D#8 : Byte) ∉ List.replicate 28 0x78#8 ∧ readingA0.cfg.wellFormed = true ∧
    readingA0.rxState = .readingMessage ∧ drainingA0.rxState = .drainingOverflow ∧
    readingA0.rxLen + ((List.replicate 28 0x78#8).length + 1) = s0.cfg.rxCapacity - 1 ∧
    (after (.zero (List.replicate 28 0x78#8)) readingA0).map (·.rxLen) = some 31 := by decide
/-- One byte more overflows the fragment; a first byte 0x0D completes it. -/
theorem test_witness_FrameIsReceivedByteByByte_edges :
    readingA0.rxLen ≤ s0.cfg.rxCapacity - 1 ∧
    s0.cfg.rxCapacity - 1 < readingA0.rxLen + ((List.replicate 29 0x78#8).length + 1) ∧
    (after (.zero (List.replicate 29 0x78#8)) readingA0).map (·.diag) = some [.frameOverflow] ∧
    (after (.unknown 0x0D#8 [0x0D#8, 0x7A#8]) readingA0).map (fun t => (t.diag, t.ret)) =
      some ([.malformedPayload], .rx (some ⟨.zero, []⟩) false) := by decide
theorem test_witness_OverlongBytesAreDrained :
    s0.cfg.wellFormed = true ∧ s0.rxState = .idle ∧
    (0x0D#8 : Byte) ∉ List.replicate 32 0x78#8 ∧
    s0.cfg.rxCapacity - 1 < (List.replicate 32 0x78#8).length := by decide
theorem test_witness_SoftResetWritesTheEngine : s0.cfg.wellFormed = true := by decide
theorem test_witness_FirstOperationsOutOfReset :
    { Config.vectors with rxCapacity := 25 }.wellFormed = true := by decide
theorem test_witness_InvariantsHoldAtReset : Config.vectors.wellFormed = true := by decide

theorem test_inv_reset : s0.Inv := by decide
theorem test_inv_reading : readingA0.Inv := by decide
theorem test_inv_draining : drainingA0.Inv := by decide
/-- The invariant is not empty: a terminator within the payload breaks it. -/
theorem test_inv_refuses :
    ¬({ readingA0 with rxBuf := [(0, 0x41#8), (1, 0x0D#8)] } : State).Inv := by decide

theorem test_witness_StepKeepsTheInvariant :
    readingA0.Inv ∧
    (nextState (step { readingA0 with schedule := [.rxByte 0x42#8] })).map (·.rxLen) = some 3 := by
  decide
theorem test_witness_NothingStopsTheBlock : readingA0.Inv := by decide
/-- A request that is no instruction, from a state with the invariant. -/
theorem test_witness_NothingStopsTheBlock_undecoded :
    decode (.sendReport 0#32 4#8) = .error (.noSuchReport 4#8) ∧
    (nextState (step { drainingA0 with schedule := [.sendReport 0#32 4#8] })).map (·.ret) =
      some (.report none) := by decide
theorem test_witness_InitStateFollowsItsEdges :
    (after (.initTick 500#32) (inInit .requestVersion)).isSome = true ∧
    (after (.initTick 5001#32) (inInit .waitZero)).map (·.initState) = some .requestVersion ∧
    (after (.version magellan) (inInit .waitVersion)).map (·.initState) =
      some .requestButtonReporting ∧
    (after (.mode [0x33#8]) (inInit .waitSetMode)).map (·.initState) = some .requestZero ∧
    (after (.rxByte 0x0D#8) { inInit .waitZero with
      rxState := .readingMessage, rxType := .zero }).map (·.initState) = some .done := by decide
/-- The frame instruction hands its message over at its terminator. -/
theorem test_witness_InitStateFollowsItsEdges_handsOver :
    handsOver (.zero []) ⟨.zero, []⟩ (inInit .waitZero) :=
  ⟨[0x7A#8], [], _, rfl, rfl, rfl, rfl⟩
theorem test_witness_ReadyChangesOnlyByZeroAndReset :
    ready (inInit .waitZero) = false ∧
    (after (.zero []) (inInit .waitZero)).map ready = some true ∧
    ready (inInit .done) = true ∧ (after .softReset (inInit .done)).map ready = some false := by
  decide
theorem test_witness_StepKeepsTheReportOrder :
    ReportOrder halfX ∧
    (nextState (step { halfX with schedule := [.hidTick 8#32 none] })).map
      (fun t => t.usbTx.map Report.id) = some [1#8] := by decide
theorem test_witness_ReportsAreSpaced :
    (after (.reportLed ⟨8#32, 1#8⟩) halfX).map (·.lastSendTime) = some 8#32 ∧
    (after (.hidTick 8#32 none) halfX).map (fun t => t.usbTx.length) = some 1 := by decide
theorem test_witness_SnapshotIsHeldInFlight :
    halfX.hidState ≠ .idle ∧ (after (.hidTick 8#32 none) halfX).isSome = true ∧
    (after (.hidTick 8#32 none) { s0 with buttons := 1#16 }).map (·.submit.buttons) = some 1#16 := by
  decide
theorem test_witness_StepKeepsSubmitNormalized :
    halfX.Inv ∧ SubmitOk halfX ∧
    (nextState (step { halfX with schedule := [.hidTick 8#32 none] })).isSome = true := by
  decide
theorem test_witness_ComponentsKeepToTheirRegisters :
    (after (.reportTranslation 8#32) halfX).isSome = true ∧
    (after (.reportLed ⟨8#32, 1#8⟩) halfX).isSome = true ∧
    frameMessage (.zero []) ≠ none ∧ (after (.zero []) halfX).isSome = true ∧
    (after (.cmdZero 1#32) (inInit .requestZero)).isSome = true ∧
    (after (.rxByte 0x42#8) readingA0).isSome = true ∧ (after .softReset halfX).isSome = true ∧
    (after (.nibble 0x30#8) halfX).isSome = true ∧ (after .beep halfX).isSome = true := by decide
theorem test_witness_BufferIsWrittenOnlyAtItsEnd :
    (after (.rxByte 0x42#8) readingA0).isSome = true ∧ 1 ≠ readingA0.rxLen ∧
    drainingA0.rxState ≠ .readingMessage ∧ (after (.rxByte 0x42#8) drainingA0).isSome = true ∧
    receivedBytes (.initTick 0#32) = [] ∧ (after (.initTick 0#32) readingA0).isSome = true ∧
    s0.cfg.rxCapacity ≤ 32 ∧ (after (.version (List.replicate 32 0x78#8)) s0).isSome = true := by
  decide

/-- Calibration bounds just past 100. -/
def cal101 : Calibration := ⟨BitVec.ofInt 16 (-101), 101#16⟩

theorem test_witness_NormalizedRange :
    cal101.wellFormed = true ∧ AxisOk (BitVec.ofInt 16 (-4096)) ∧ AxisOk 4095#16 ∧
    (normalize ⟨BitVec.ofInt 16 (-1), 1#16⟩ (BitVec.ofInt 16 (-4096))) = 0x45800000#32 := by
  decide
theorem test_witness_NormZeroOnlyForZero :
    cal101.wellFormed = true ∧ normalize cal101 0#16 = 0#32 ∧ normalize cal101 1#16 ≠ 0#32 := by
  decide
theorem test_witness_QuotientIsNearest :
    (1#16 : I16) ≠ 0#16 ∧ (3#16 : I16) ≠ 0#16 ∧ normExponent (normDiv 1#16 3#16) ≠ 255 ∧
    normExponent 0x7F7FFFFF#32 ≠ 255 := by decide
theorem test_witness_PhysicalMapTruncatesTheProduct :
    NormOk 0#32 ∧ NormOk 0x38000000#32 ∧ NormOk 0x45800000#32 ∧ normExponent 0#32 ≠ 255 := by
  decide
theorem test_witness_AbstractNumericsProperties :
    physMap (normDiv 0x8000#16 0x8000#16) = some 800#16 ∧ physMap (normDiv 1#16 1#16) = some 800#16 := by
  decide
theorem test_witness_PhysicalValueIsInRange :
    cal101.wellFormed = true ∧ cal101.min.toInt < -100 ∧ 100 < cal101.max.toInt ∧
    (physMap (normalize cal101 (BitVec.ofInt 16 (-4096)))).isSome = true ∧
    (physMap (normalize cal101 4095#16)).isSome = true := by decide

end Sys2Proof.Tests
end

section
/-! PROOF. The configuration (R11, R12): each constraint of the table of R11 as a proposition, and
the refusal of an ill-formed configuration by every instruction and every step. -/

namespace Sys2Proof

/-! ### The constraints of R11, one `↔` per check -/

theorem Calibration.wellFormed_iff (c : Calibration) :
    c.wellFormed = true ↔ c.min.toInt < 0 ∧ 0 < c.max.toInt := by
  simp [Calibration.wellFormed]

theorem Axes.forall_get_iff {α : Type} (P : α → Prop) (t : Axes α) :
    (∀ a, P (t.get a)) ↔ P t.x ∧ P t.y ∧ P t.z ∧ P t.u ∧ P t.v ∧ P t.w := by
  constructor
  · intro h
    exact ⟨h .x, h .y, h .z, h .u, h .v, h .w⟩
  · rintro ⟨hx, hy, hz, hu, hv, hw⟩ a
    cases a <;> assumption

theorem calWellFormed_iff (t : Axes Calibration) :
    calWellFormed t = true ↔ ∀ a, (t.get a).min.toInt < 0 ∧ 0 < (t.get a).max.toInt := by
  rw [Axes.forall_get_iff (fun c : Calibration => c.min.toInt < 0 ∧ 0 < c.max.toInt)]
  simp only [calWellFormed, Bool.and_eq_true, Calibration.wellFormed_iff, and_assoc]

theorem magicWellFormed_iff (capacity : Nat) (magic : List Byte) :
    magicWellFormed capacity magic = true ↔
      magic ≠ [] ∧ terminator ∉ magic ∧ magic.length ≤ capacity - 1 := by
  simp [magicWellFormed, and_assoc]

theorem take_four_eq_iff {α : Type} (l : List α) (p q r s : α) :
    l.take 4 = [p, q, r, s] ↔
      l[0]? = some p ∧ l[1]? = some q ∧ l[2]? = some r ∧ l[3]? = some s := by
  match l with
  | [] | [_] | [_, _] | [_, _, _] => simp
  | _ :: _ :: _ :: _ :: _ => simp

/-- What is left of a list after all its entries but one is that entry. -/
theorem drop_eq_singleton_iff {α : Type} {l : List α} {n : Nat} (h : l.length = n + 1) (p : α) :
    l.drop n = [p] ↔ l[n]? = some p := by
  obtain ⟨q, hq⟩ : ∃ q, l.drop n = [q] := List.length_eq_one_iff.mp (by simp [h])
  rw [← List.head?_drop, hq]
  simp

theorem alphabetWellFormed_iff (a : List Byte) :
    alphabetWellFormed a = true ↔
      a.length = 16 ∧ a.Nodup ∧ a[0]? = some 0x30#8 ∧ a[1]? = some 0x41#8 ∧
      a[2]? = some 0x42#8 ∧ a[3]? = some 0x33#8 ∧ a[15]? = some 0x3F#8 := by
  simp only [alphabetWellFormed, Bool.and_eq_true, decide_eq_true_eq, and_assoc]
  refine and_congr_right fun hlen => ?_
  rw [take_four_eq_iff, drop_eq_singleton_iff hlen]
  simp only [and_assoc]

theorem Config.wellFormed_iff (c : Config) :
    c.wellFormed = true ↔
      25 ≤ c.rxCapacity ∧ magicWellFormed c.rxCapacity c.versionMagic = true ∧
      alphabetWellFormed c.nibbleAlphabet = true ∧ (9 ≤ c.buttonCount ∧ c.buttonCount ≤ 16) ∧
      calWellFormed c.cal = true := by
  simp only [Config.wellFormed, Bool.and_eq_true, decide_eq_true_eq, and_assoc]

end Sys2Proof

namespace Sys2Proof.Machine

/-! ### The refusal of R12 -/

theorem exec_refuses (i : Instr) {s : State} (h : s.cfg.wellFormed = false) :
    exec i s = .refused .illFormedConfig := by
  cases i <;> exact configured_refuses _ h

theorem execUndecoded_refuses (r : Request) {s : State} (h : s.cfg.wellFormed = false) :
    execUndecoded r s = .refused .illFormedConfig :=
  configured_refuses _ h

/-- A step is idle, an instruction, or the effect of a request that is none: each is guarded. -/
theorem step_refuses {s : State} (h : s.cfg.wellFormed = false) :
    step s = .refused .illFormedConfig := by
  unfold step
  split
  · exact configured_refuses _ h
  · split
    · exact exec_refuses _ h
    · exact execUndecoded_refuses _ h

/-- Settles O6: the constraints of R11 one by one, and the guard of R12. -/
theorem illFormedConfigurationIsRefused : Obligations.IllFormedConfigurationIsRefused := by
  unfold Obligations.IllFormedConfigurationIsRefused
  constructor
  · intro c
    rw [Config.wellFormed_iff, magicWellFormed_iff, alphabetWellFormed_iff, calWellFormed_iff]
  · intro s h
    exact ⟨fun i => exec_refuses i h, step_refuses h⟩

end Sys2Proof.Machine
end

section
/-! PROOF. The registers after hard reset (R43, R310). Three of the values are what an operation
reads from the registers: the gate, each axis, and the live snapshot. -/

namespace Sys2Proof

@[simp] theorem Axes.get_all {α : Type} (v : α) (a : Axis) : (Axes.all v).get a = v := by
  cases a <;> rfl

@[simp] theorem Axes.ofFn_const {α : Type} (v : α) : Axes.ofFn (fun _ => v) = Axes.all v := rfl

end Sys2Proof

namespace Sys2Proof.Machine

/-- A gate of length 0 is expired at every time: the comparison of R33 is inclusive. -/
theorem gateExpired_of_gateLen_zero (now : Time) {s : State} (h : s.gateLen = 0) :
    gateExpired now s = true := by
  rw [gateExpired_iff, h]
  exact Nat.zero_le _

/-- A zero raw value never meets the calibration, so this needs no well-formed one (R211, R213). -/
@[simp] theorem normalize_zero (c : Calibration) : normalize c 0#16 = normZero := by
  simp [normalize]

theorem live_of_raw_zero {s : State} (h : s.raw = Axes.all 0#16) :
    live s = ⟨Axes.all normZero, s.buttons⟩ := by
  simp [live, getNorm, h]

theorem resetWith_submit_eq_live (c : Config) :
    (State.resetWith c).submit = live (State.resetWith c) :=
  (live_of_raw_zero (s := State.resetWith c) rfl).symm

/-- Settles O41: a written register holds its value by definition of reset; the gate, the axes and
the snapshot follow from the lemmas above. -/
theorem hardResetValues : Obligations.HardResetValues := by
  unfold Obligations.HardResetValues
  intro c
  have gate_expired (now : Time) : gateExpired now (State.resetWith c) = true :=
    gateExpired_of_gateLen_zero now rfl
  have axes_zero (a : Axis) : (State.resetWith c).raw.get a = 0#16 := Axes.get_all 0#16 a
  exact ⟨rfl, rfl, rfl, rfl, rfl, rfl, rfl, rfl, gate_expired, axes_zero, rfl, rfl, rfl, rfl, rfl,
    rfl, resetWith_submit_eq_live c, rfl, rfl, rfl, rfl⟩

end Sys2Proof.Machine
end

section
/-! PROOF. The nibble character (R93, R130): the search of `decode_nibble` through the alphabet, and
the instruction NIBBLE. -/

namespace Sys2Proof.Machine

/-! ### What the search finds -/

theorem nibbleFrom_of_notMem {c : Byte} (n : Nat) {l : List Byte} (h : c ∉ l) :
    nibbleFrom c n l = 0#4 := by
  induction l generalizing n with
  | nil => rfl
  | cons a as ih =>
    obtain ⟨hne, hmem⟩ := List.ne_and_not_mem_of_not_mem_cons h
    rw [nibbleFrom, if_neg hne, ih (n + 1) hmem]

/-- Distinct entries make the search stop at the entry asked for, and at no earlier one. -/
theorem nibbleFrom_of_getElem? {c : Byte} (n : Nat) {l : List Byte} {k : Nat} (hl : l.Nodup)
    (h : l[k]? = some c) : nibbleFrom c n l = BitVec.ofNat 4 (n + k) := by
  induction l generalizing n k with
  | nil => simp at h
  | cons a as ih =>
    obtain ⟨ha, has⟩ := List.nodup_cons.mp hl
    cases k with
    | zero =>
      have hca : c = a := by simpa using h.symm
      rw [nibbleFrom, if_pos hca, Nat.add_zero]
    | succ j =>
      have hj : as[j]? = some c := by simpa using h
      have hca : c ≠ a := fun e => ha (e ▸ List.mem_of_getElem? hj)
      rw [nibbleFrom, if_neg hca, ih (n + 1) has hj, Nat.add_right_comm n 1 j, Nat.add_assoc]

/-! ### `decode_nibble` -/

theorem decodeNibble_of_notMem {cfg : Config} {c : Byte} (h : c ∉ cfg.nibbleAlphabet) :
    decodeNibble cfg c = 0#4 :=
  nibbleFrom_of_notMem 0 h

/-- An index of the alphabet is below 16 (R11), so its value fits in a nibble. -/
theorem decodeNibble_toNat_of_getElem? {cfg : Config} {c : Byte} {k : Nat}
    (hw : alphabetWellFormed cfg.nibbleAlphabet = true) (h : cfg.nibbleAlphabet[k]? = some c) :
    (decodeNibble cfg c).toNat = k := by
  obtain ⟨hlen, hnodup, -⟩ := (alphabetWellFormed_iff _).mp hw
  obtain ⟨hk, -⟩ := List.getElem?_eq_some_iff.mp h
  have hfit : k < 2 ^ 4 := hk.trans_eq hlen
  rw [decodeNibble, nibbleFrom_of_getElem? 0 hnodup h, Nat.zero_add, BitVec.toNat_ofNat,
    Nat.mod_eq_of_lt hfit]

/-! ### NIBBLE -/

theorem exec_nibble (c : Byte) {s : State} (hw : s.cfg.wellFormed = true) :
    exec (.nibble c) s = .next { s with ret := .nibble (decodeNibble s.cfg c) } :=
  configured_ok _ hw

/-- Settles O8: NIBBLE returns `decode_nibble`, whose search finds each symbol at its index. -/
theorem nibbleCharacterDecodes : Obligations.NibbleCharacterDecodes := by
  unfold Obligations.NibbleCharacterDecodes
  intro s c hw
  obtain ⟨-, -, halphabet, -, -⟩ := (Config.wellFormed_iff s.cfg).mp hw
  exact ⟨exec_nibble c hw, fun _ h => decodeNibble_toNat_of_getElem? halphabet h,
    decodeNibble_of_notMem⟩

end Sys2Proof.Machine
end

section
/-! PROOF. The serial framer (R141, R142, R144): the class of a tag byte, and RX_BYTE in the two
states whose step completes no frame. -/

namespace Sys2Proof.Machine

/-! ### The class of a tag -/

theorem classify_of_notMem_knownTags {b : Byte} (h : b ∉ knownTags) : classify b = .unknown :=
  (Laws.classify_unknown_iff b).mpr (by simpa using h)

/-- Settles O4: each of the six tags evaluates to its type, and a byte outside their list is
`Unknown` by the law of `classify`. -/
theorem tagSelectsMessageType : Obligations.TagSelectsMessageType := by
  unfold Obligations.TagSelectsMessageType
  exact ⟨rfl, rfl, rfl, rfl, rfl, rfl, fun _ => classify_of_notMem_knownTags⟩

/-! ### `feed` in `Idle` and in `DrainingOverflow` -/

theorem feed_tag {b : Byte} {s : State} (hs : s.rxState = .idle) :
    feed b s = .next
      ({ s with rxType := classify b, rxLen := 0, rxState := .readingMessage }, none) := by
  rw [feed, hs]
  rfl

theorem feed_drained {s : State} (hs : s.rxState = .drainingOverflow) :
    feed terminator s = .next ({ s with rxState := .idle }, none) := by
  rw [feed, hs]
  rfl

theorem feed_discards {b : Byte} {s : State} (hs : s.rxState = .drainingOverflow)
    (hb : b ≠ terminator) : feed b s = .next (s, none) := by
  rw [feed, hs]
  simp only [feedDraining, if_neg hb]

/-! ### RX_BYTE -/

theorem exec_rxByte (b : Byte) {s : State} (hw : s.cfg.wellFormed = true) :
    exec (.rxByte b) s = rxByte b s :=
  configured_ok _ hw

/-- A byte that completes no frame: what `feed` leaves is the outcome, and nothing is interpreted
(R145). -/
theorem exec_rxByte_of_feed_none {b : Byte} {s t : State} (hw : s.cfg.wellFormed = true)
    (hf : feed b s = .next (t, none)) :
    exec (.rxByte b) s = .next { t with ret := .rx none false } := by
  rw [exec_rxByte b hw, rxByte_of_feed hf]
  rfl

/-- Settles O34: in `Idle` `feed` has one case for all bytes, and it completes no frame. -/
theorem idleByteIsATag : Obligations.IdleByteIsATag := by
  unfold Obligations.IdleByteIsATag
  intro s b hw hs
  exact exec_rxByte_of_feed_none hw (feed_tag hs)

/-- Settles O37: one case per row of R144. -/
theorem drainingDiscardsBytes : Obligations.DrainingDiscardsBytes := by
  unfold Obligations.DrainingDiscardsBytes
  intro s b hw hs
  constructor
  · rintro rfl
    exact exec_rxByte_of_feed_none hw (feed_drained hs)
  · intro hb
    exact exec_rxByte_of_feed_none hw (feed_discards hs hb)

end Sys2Proof.Machine
end

section
/-! PROOF. The sequencer's commanding steps (R162, R163, R165, R166, R168): which instructions run
the step that `init_state` selects, what each of these steps does, and the two together. -/

namespace Sys2Proof.Machine

/-! ### Which instructions run the selected step -/

/-- The tick, or the row of the step that the tick selects after the stuck check, is that tick
(R172). -/
theorem exec_selected {i : Instr} {now : Time} {s : State} (hw : s.cfg.wellFormed = true)
    (hi : sequencerAt i now) (ho : ∀ w, ownStep i = some w → (stuckCheck now s).initState = w) :
    exec i s = transmitted (initTick now s) := by
  have row_selected (want : InitState) (h : (stuckCheck now s).initState = want) :
      configured s (transmitted (tickOf want now s)) = transmitted (initTick now s) := by
    rw [configured_ok _ hw, tickOf, if_pos h]
  rcases hi with rfl | rfl | rfl | rfl | rfl | rfl
  · exact configured_ok _ hw
  · exact row_selected .reset (ho _ rfl)
  · exact row_selected .requestVersion (ho _ rfl)
  · exact row_selected .requestButtonReporting (ho _ rfl)
  · exact row_selected .requestSetMode (ho _ rfl)
  · exact row_selected .requestZero (ho _ rfl)

theorem initTick_of_not_stuck {now : Time} {s : State} (h : ¬ stuck now s = true) :
    initTick now s = initStep now s := by
  rw [initTick, stuckCheck, if_neg h]

/-- With no stall, the tick and the row of the current state's command both run its state step. -/
theorem exec_currentStep {i row : Instr} {now : Time} {s : State} {cur : InitState}
    (hw : s.cfg.wellFormed = true) (hns : ¬ stuck now s = true) (hs : s.initState = cur)
    (hrow : sequencerAt row now) (ho : ownStep row = some cur) (hi : i = .initTick now ∨ i = row) :
    exec i s = transmitted (initStep now s) := by
  have hsel : (stuckCheck now s).initState = cur := by rw [stuckCheck, if_neg hns, hs]
  rw [← initTick_of_not_stuck hns]
  rcases hi with rfl | rfl
  · exact exec_selected hw (.inl rfl) nofun
  · exact exec_selected hw hrow fun w h => hsel.trans (Option.some.inj (ho.symm.trans h))

/-! ### When there is no stall (R161) -/

theorem not_stuck_of_reset {now : Time} {s : State} (hs : s.initState = .reset) :
    ¬ stuck now s = true := fun h =>
  (stuck_true h).1 hs

/-- The bound of 5000 ms is inclusive. -/
theorem not_stuck_of_elapsed_le {now : Time} {s : State}
    (h : (now - s.lastResetTime).toNat ≤ 5000) : ¬ stuck now s = true := by
  rw [stuck_iff]
  rintro ⟨-, -, hlate⟩
  exact absurd h (Nat.not_le.mpr hlate)

/-! ### The commanding steps, one equation per case -/

theorem initStep_reset (now : Time) {s : State} (hs : s.initState = .reset) :
    initStep now s = ({ s with
      uartTx := s.uartTx ++ bytesCmdReset, gateStart := now, gateLen := 500
      lastResetTime := now, initState := .requestVersion }, some bytesCmdReset) := by
  rw [initStep, hs]
  rfl

theorem initStep_requestVersion_of_gateExpired {now : Time} {s : State}
    (hs : s.initState = .requestVersion) (hg : gateExpired now s = true) :
    initStep now s = ({ s with
      uartTx := s.uartTx ++ bytesCmdGetVersion, initState := .waitVersion },
      some bytesCmdGetVersion) := by
  rw [initStep, hs]
  exact if_pos hg

theorem initStep_requestButtonReporting (now : Time) {s : State}
    (hs : s.initState = .requestButtonReporting) :
    initStep now s = ({ s with
      uartTx := s.uartTx ++ bytesCmdButtonReporting, gateStart := now, gateLen := 500
      initState := .requestSetMode }, some bytesCmdButtonReporting) := by
  rw [initStep, hs]
  rfl

theorem initStep_requestSetMode_of_gateExpired {now : Time} {s : State}
    (hs : s.initState = .requestSetMode) (hg : gateExpired now s = true) :
    initStep now s = ({ s with
      uartTx := s.uartTx ++ bytesCmdSetMode, initState := .waitSetMode },
      some bytesCmdSetMode) := by
  rw [initStep, hs]
  exact if_pos hg

theorem initStep_requestZero (now : Time) {s : State} (hs : s.initState = .requestZero) :
    initStep now s = ({ s with
      uartTx := s.uartTx ++ bytesCmdZero, initState := .waitZero }, some bytesCmdZero) := by
  rw [initStep, hs]
  rfl

/-- The two gated steps are held back while their gate is closed (R163, R166). -/
theorem initStep_of_gate_closed {now : Time} {s : State}
    (hs : s.initState = .requestVersion ∨ s.initState = .requestSetMode)
    (hg : ¬ gateExpired now s = true) : initStep now s = (s, none) := by
  rcases hs with hs | hs
  · rw [initStep, hs]
    exact if_neg hg
  · rw [initStep, hs]
    exact if_neg hg

theorem not_gateExpired_of_lt {now : Time} {s : State}
    (h : (now - s.gateStart).toNat < s.gateLen) : ¬ gateExpired now s = true := by
  rw [gateExpired_iff]
  exact Nat.not_le.mpr h

/-! ### The statements -/

/-- Settles O20: no stall preempts the step, and its two clauses are the two cases of the gate. -/
theorem requestVersionStep : Obligations.RequestVersionStep := by
  unfold Obligations.RequestVersionStep
  intro s now i hw hs hle hi
  rw [exec_currentStep hw (not_stuck_of_elapsed_le hle) hs (by simp [sequencerAt]) rfl hi]
  constructor
  · intro hopen
    rw [initStep_requestVersion_of_gateExpired hs ((gateExpired_iff now s).mpr hopen)]
    rfl
  · intro hclosed
    rw [initStep_of_gate_closed (.inl hs) (not_gateExpired_of_lt hclosed)]
    rfl

/-- Settles O22: as O20, with the gate that the RequestButtonReporting step armed. -/
theorem requestSetModeStep : Obligations.RequestSetModeStep := by
  unfold Obligations.RequestSetModeStep
  intro s now i hw hs hle hi
  rw [exec_currentStep hw (not_stuck_of_elapsed_le hle) hs (by simp [sequencerAt]) rfl hi]
  constructor
  · intro hopen
    rw [initStep_requestSetMode_of_gateExpired hs ((gateExpired_iff now s).mpr hopen)]
    rfl
  · intro hclosed
    rw [initStep_of_gate_closed (.inr hs) (not_gateExpired_of_lt hclosed)]
    rfl

/-- Settles O19: the Reset state is never stalled, so its step runs at every time. -/
theorem resetStepSendsReset : Obligations.ResetStepSendsReset := by
  unfold Obligations.ResetStepSendsReset
  intro s now i hw hs hi
  rw [exec_currentStep hw (not_stuck_of_reset hs) hs (by simp [sequencerAt]) rfl hi,
    initStep_reset now hs]
  rfl

/-- Settles O21: the step is not gated. -/
theorem requestButtonReportingStep : Obligations.RequestButtonReportingStep := by
  unfold Obligations.RequestButtonReportingStep
  intro s now i hw hs hle hi
  rw [exec_currentStep hw (not_stuck_of_elapsed_le hle) hs (by simp [sequencerAt]) rfl hi,
    initStep_requestButtonReporting now hs]
  rfl

/-- Settles O23: the step is not gated. -/
theorem requestZeroStep : Obligations.RequestZeroStep := by
  unfold Obligations.RequestZeroStep
  intro s now i hw hs hle hi
  rw [exec_currentStep hw (not_stuck_of_elapsed_le hle) hs (by simp [sequencerAt]) rfl hi,
    initStep_requestZero now hs]
  rfl

end Sys2Proof.Machine
end

section
/-! PROOF. The message interpreter (R190 to R200): what the handler of each message type does, one
equation per case, and what a frame received from `Idle` does with it. -/

namespace Sys2Proof.Machine

/-! ### A length-checked message of another length (R198) -/

theorem interpret_wrongLength {m : Message} {n : Nat} (s : State)
    (hn : requiredLength m.type = some n) (hne : m.length ≠ n) :
    interpret m s = (diagnose .malformedPayload s, false) := by
  obtain ⟨ty, p⟩ := m
  cases ty <;> simp only [requiredLength, Option.some.injEq, reduceCtorEq] at hn <;> subst hn
  case keypress | positionRotation | modeChange | sensitivityChange => exact if_neg hne

/-! ### A frame received from `Idle` -/

/-- A frame that fits stands in the buffer when it completes, and its message is interpreted (R142,
R143, R145). -/
theorem exec_frame_fits {i : Instr} {tag : Byte} {ty : MessageType} {p : List Byte} {s : State}
    (hi : receivedBytes i = frameBytes tag p) (hty : classify tag = ty)
    (hw : s.cfg.wellFormed = true) (hs : s.rxState = .idle) (hp : terminator ∉ p)
    (hl : p.length ≤ s.cfg.rxCapacity - 1) :
    ∃ buf, HoldsFrame s.rxBuf buf p ∧
      exec i s = .next { (interpret ⟨ty, p⟩ s).1 with
        rxType := ty, rxLen := p.length, rxBuf := buf
        ret := .rx (some ⟨ty, p⟩) (interpret ⟨ty, p⟩ s).2 } := by
  subst hty
  obtain ⟨hcap, -⟩ := (Config.wellFormed_iff s.cfg).mp hw
  obtain ⟨buf, hbuf, hrecv⟩ := receive_frameBytes (tag := tag) (by omega) hs hp hl
  have stays_idle : (interpret ⟨classify tag, p⟩ s).1.rxState = .idle := by
    obtain ⟨_, _, _, _, _, _, _, e⟩ := interpret_frame ⟨classify tag, p⟩ s
    rw [e]
    exact hs
  refine ⟨buf, hbuf, ?_⟩
  rw [exec_receives s (by simp [hi, frameBytes]), hi, configured_ok _ hw, hrecv, ← stays_idle]

/-- A frame that does not fit is dropped (R109). -/
theorem exec_frame_overlong {i : Instr} {tag : Byte} {ty : MessageType} {p : List Byte} {s : State}
    (hi : receivedBytes i = frameBytes tag p) (hty : classify tag = ty)
    (hw : s.cfg.wellFormed = true) (hs : s.rxState = .idle) (hp : terminator ∉ p)
    (hl : s.cfg.rxCapacity - 1 < p.length) :
    ∃ buf,
      (∀ k, k < s.cfg.rxCapacity - 1 → p[k]? = some (Memory.read buf k)) ∧
      (∀ k, s.cfg.rxCapacity - 1 ≤ k → Memory.read buf k = Memory.read s.rxBuf k) ∧
      exec i s = .next { s with
        rxType := ty, rxLen := s.cfg.rxCapacity - 1, rxBuf := buf
        diag := s.diag ++ [.frameOverflow], ret := .rx none false } := by
  subst hty
  rw [exec_receives s (by simp [hi, frameBytes]), hi, configured_ok _ hw]
  exact receive_overlongFrameBytes hs hp hl

/-- A length-checked frame of another length writes no register but the framer's, whether it fits
(R198) or not (R109). -/
theorem exec_frame_wrongLength {i : Instr} {tag : Byte} {ty : MessageType} {p : List Byte}
    {s : State} {n : Nat}
    (hi : receivedBytes i = frameBytes tag p) (hty : classify tag = ty)
    (hw : s.cfg.wellFormed = true) (hs : s.rxState = .idle) (hp : terminator ∉ p)
    (hn : requiredLength ty = some n) (hne : p.length ≠ n) :
    ∃ len buf dg m, (∀ k, p.length < k → Memory.read buf k = Memory.read s.rxBuf k) ∧
      exec i s = .next { s with
        rxType := ty, rxLen := len, rxBuf := buf, diag := dg, ret := .rx m false } := by
  rcases Nat.lt_or_ge (s.cfg.rxCapacity - 1) p.length with hl | hl
  · obtain ⟨buf, -, hrest, hexec⟩ := exec_frame_overlong hi hty hw hs hp hl
    exact ⟨_, buf, _, _, fun k hk => hrest k (by omega), hexec⟩
  · obtain ⟨buf, ⟨-, -, hrest⟩, hexec⟩ := exec_frame_fits hi hty hw hs hp hl
    rw [interpret_wrongLength (m := ⟨ty, p⟩) s hn hne] at hexec
    exact ⟨_, buf, _, _, hrest, hexec⟩

/-! ### KEYPRESS (R195) -/

/-- A nibble loses no bit when it is shifted within 16 bits. -/
theorem nib_shiftLeft_toNat (n : Nib) {k : Nat} (hk : k ≤ 12) :
    (n.setWidth 16 <<< k).toNat = 2 ^ k * n.toNat := by
  have hfit : 2 ^ k * n.toNat < 2 ^ 12 * 2 ^ 4 :=
    Nat.mul_lt_mul_of_le_of_lt (Nat.pow_le_pow_right (by decide) hk) n.isLt (by decide)
  rw [BitVec.toNat_shiftLeft, Nat.shiftLeft_eq, BitVec.toNat_setWidth_of_le (by decide),
    Nat.mul_comm, Nat.mod_eq_of_lt (b := 2 ^ 16) hfit]

/-- The three shifted nibbles do not overlap, so the bitmap is their sum (R66, R95). -/
theorem keypressBitmap_toNat (cfg : Config) (c0 c1 c2 : Byte) :
    (keypressBitmap cfg [c0, c1, c2]).toNat =
      (decodeNibble cfg c2).toNat * 256 + (decodeNibble cfg c1).toNat * 16 +
        (decodeNibble cfg c0).toNat := by
  have low := Nat.two_pow_add_eq_or_of_lt (decodeNibble cfg c0).isLt (decodeNibble cfg c1).toNat
  have high := Nat.two_pow_add_eq_or_of_lt (i := 8)
    (b := 2 ^ 4 * (decodeNibble cfg c1).toNat + (decodeNibble cfg c0).toNat) (by omega)
    (decodeNibble cfg c2).toNat
  calc (keypressBitmap cfg [c0, c1, c2]).toNat
      = 2 ^ 8 * (decodeNibble cfg c2).toNat ||| 2 ^ 4 * (decodeNibble cfg c1).toNat |||
          (decodeNibble cfg c0).toNat := by
        simp only [keypressBitmap, BitVec.toNat_or]
        rw [nib_shiftLeft_toNat _ (by decide), nib_shiftLeft_toNat _ (by decide),
          BitVec.toNat_setWidth_of_le (by decide)]
        rfl
    _ = _ := by rw [Nat.or_assoc, ← low, ← high]; omega

/-- Cutting to `BUTTON_COUNT` bits is the remainder modulo 2^`BUTTON_COUNT` (R29). -/
theorem cutMask_eq {count : Nat} (h : count ≤ 16) (m : Mask) :
    cutMask count m = BitVec.ofNat 16 (m.toNat % 2 ^ count) := by
  have hfit : 2 ^ count - 1 < 2 ^ 16 :=
    Nat.sub_one_lt_of_le (Nat.two_pow_pos _) (Nat.pow_le_pow_right (by decide) h)
  apply BitVec.eq_of_toNat_eq
  rw [cutMask, BitVec.toNat_and, BitVec.toNat_ofNat, BitVec.toNat_ofNat, Nat.mod_eq_of_lt hfit,
    Nat.and_two_pow_sub_one_eq_mod,
    Nat.mod_eq_of_lt ((Nat.mod_le _ _).trans_lt m.isLt)]

theorem interpret_keypress (c0 c1 c2 : Byte) (s : State) :
    interpret ⟨.keypress, [c0, c1, c2]⟩ s =
      ({ s with buttons := cutMask s.cfg.buttonCount (keypressBitmap s.cfg [c0, c1, c2]) },
        true) := rfl

/-- Settles O10: three characters fit in every admitted buffer, and the cut bitmap is the remainder
of the nibbles' sum. -/
theorem keypressSetsTheButtonMask : Obligations.KeypressSetsTheButtonMask := by
  unfold Obligations.KeypressSetsTheButtonMask
  intro s p hw hs hp
  obtain ⟨hcap, -, -, ⟨-, hcount⟩, -⟩ := (Config.wellFormed_iff s.cfg).mp hw
  constructor
  · rintro c0 c1 c2 rfl
    obtain ⟨buf, hbuf, hexec⟩ := exec_frame_fits (i := .keypress [c0, c1, c2])
      (ty := .keypress) rfl rfl hw hs hp (show 3 ≤ _ by omega)
    refine ⟨buf, hbuf, ?_⟩
    rw [hexec, interpret_keypress, cutMask_eq hcount, keypressBitmap_toNat]
    rfl
  · exact exec_frame_wrongLength rfl rfl hw hs hp rfl

/-! ### POSROT (R196) -/

theorem wordAt_append_first (cfg : Config) {word : List Byte} (rest : List Byte)
    (h : word.length = 4) : wordAt cfg (word ++ rest) 0 = wordAt cfg word 0 := by
  have byte_at (j : Nat) (hj : j < 4) : (word ++ rest).getD j 0#8 = word.getD j 0#8 :=
    List.getD_append _ _ _ _ (h ▸ hj)
  rw [wordAt, byte_at 0 (by decide), byte_at (0 + 1) (by decide), byte_at (0 + 2) (by decide),
    byte_at (0 + 3) (by decide), wordAt]

theorem wordAt_append_rest (cfg : Config) {word : List Byte} (rest : List Byte) (o : Nat)
    (h : word.length = 4) : wordAt cfg (word ++ rest) (o + 4) = wordAt cfg rest o := by
  have byte_at (j : Nat) : (word ++ rest).getD (o + 4 + j) 0#8 = rest.getD (o + j) 0#8 := by
    rw [List.getD_append_right _ _ _ _ (by omega), h, show o + 4 + j - 4 = o + j by omega]
  rw [wordAt, byte_at 1, byte_at 2, byte_at 3, show o + 4 = o + 4 + 0 from rfl, byte_at 0, wordAt,
    Nat.add_zero]

/-- The payload order x, z, y, v, w, u is not the register order (R69, R96). -/
theorem posrotAxes_words (cfg : Config) {x z y v w u : List Byte} (hx : x.length = 4)
    (hz : z.length = 4) (hy : y.length = 4) (hv : v.length = 4) (hw : w.length = 4) :
    posrotAxes cfg (x ++ z ++ y ++ v ++ w ++ u) =
      { x := wordAt cfg x 0, y := wordAt cfg y 0, z := wordAt cfg z 0,
        u := wordAt cfg u 0, v := wordAt cfg v 0, w := wordAt cfg w 0 } := by
  simp only [posrotAxes, List.append_assoc, wordAt_append_first, wordAt_append_rest, hx, hz, hy, hv,
    hw]

theorem interpret_posrot {p : List Byte} (s : State) (h : p.length = 24) :
    interpret ⟨.positionRotation, p⟩ s = ({ s with raw := posrotAxes s.cfg p }, true) :=
  if_pos h

/-- Settles O11: six words of four characters fit in every admitted buffer, and each is read at the
offset where it stands. -/
theorem positionRotationSetsSixAxes : Obligations.PositionRotationSetsSixAxes := by
  unfold Obligations.PositionRotationSetsSixAxes
  intro s p hw hs hp
  obtain ⟨hcap, -⟩ := (Config.wellFormed_iff s.cfg).mp hw
  constructor
  · intro x z y v w u hx hz hy hv hw' hu hwords
    have hlen : p.length = 24 := by simp [hwords, hx, hz, hy, hv, hw', hu]
    obtain ⟨buf, hbuf, hexec⟩ := exec_frame_fits (i := .posrot p)
      (ty := .positionRotation) rfl rfl hw hs hp (by omega)
    rw [interpret_posrot s hlen, hlen] at hexec
    refine ⟨buf, hbuf, ?_⟩
    rw [hexec, ← posrotAxes_words s.cfg hx hz hy hv hw', ← hwords]
  · exact exec_frame_wrongLength rfl rfl hw hs hp rfl

/-! ### MODE (R192) -/

theorem interpret_mode_expected {c : Byte} {s : State} (hi : s.initState = .waitSetMode)
    (hc : decodeNibble s.cfg c = expectedMode) :
    interpret ⟨.modeChange, [c]⟩ s =
      ({ s with mode := expectedMode, initState := .requestZero }, true) := by
  simp [interpret, onMode, hi, hc]

theorem interpret_mode_other {c : Byte} {s : State}
    (h : ¬(s.initState = .waitSetMode ∧ decodeNibble s.cfg c = expectedMode)) :
    interpret ⟨.modeChange, [c]⟩ s = ({ s with mode := decodeNibble s.cfg c }, true) :=
  if_neg h

/-- Settles O12: the two clauses are the two cases of the comparison with `EXPECTED_MODE`. -/
theorem modeReportIsStored : Obligations.ModeReportIsStored := by
  unfold Obligations.ModeReportIsStored
  intro s p hw hs hp
  obtain ⟨hcap, -⟩ := (Config.wellFormed_iff s.cfg).mp hw
  constructor
  · rintro c rfl
    obtain ⟨buf, hbuf, hexec⟩ := exec_frame_fits (i := .mode [c])
      (ty := .modeChange) rfl rfl hw hs hp (show 1 ≤ _ by omega)
    refine ⟨buf, hbuf, fun hi hc => ?_, fun h => ?_⟩
    · rw [hexec, interpret_mode_expected hi hc]
      rfl
    · rw [hexec, interpret_mode_other h]
      rfl
  · exact exec_frame_wrongLength rfl rfl hw hs hp rfl

/-! ### SENS (R193) -/

theorem interpret_sens (t r : Byte) (s : State) :
    interpret ⟨.sensitivityChange, [t, r]⟩ s =
      ({ s with sensT := decodeNibble s.cfg t, sensR := decodeNibble s.cfg r }, true) := rfl

/-- Settles O13: two characters fit in every admitted buffer. -/
theorem sensitivityIsStored : Obligations.SensitivityIsStored := by
  unfold Obligations.SensitivityIsStored
  intro s p hw hs hp
  obtain ⟨hcap, -⟩ := (Config.wellFormed_iff s.cfg).mp hw
  constructor
  · rintro t r rfl
    obtain ⟨buf, hbuf, hexec⟩ := exec_frame_fits (i := .sens [t, r])
      (ty := .sensitivityChange) rfl rfl hw hs hp (show 2 ≤ _ by omega)
    rw [interpret_sens] at hexec
    exact ⟨buf, hbuf, hexec⟩
  · exact exec_frame_wrongLength rfl rfl hw hs hp rfl

/-! ### ZERO (R194) -/

theorem interpret_zero_waiting {p : List Byte} {s : State} (hi : s.initState = .waitZero) :
    interpret ⟨.zero, p⟩ s = ({ s with initState := .done }, true) :=
  if_pos hi

theorem interpret_zero_not_waiting {p : List Byte} {s : State} (hi : s.initState ≠ .waitZero) :
    interpret ⟨.zero, p⟩ s = (s, false) :=
  if_neg hi

/-- Settles O14: the two clauses are the two cases of `on_zero`, which does not look at the
payload. -/
theorem zeroFrameAcknowledges : Obligations.ZeroFrameAcknowledges := by
  unfold Obligations.ZeroFrameAcknowledges
  intro s p hw hs hp hl
  obtain ⟨buf, hbuf, hexec⟩ := exec_frame_fits (i := .zero p) (ty := .zero) rfl rfl hw hs hp hl
  refine ⟨buf, hbuf, fun hi => ?_, fun hi => ?_⟩
  · rw [hexec, interpret_zero_waiting hi]
  · rw [hexec, interpret_zero_not_waiting hi]

/-! ### VERSION (R191, R200) -/

/-- The search finds the magic exactly when it is a contiguous part of the payload. -/
theorem containsBytes_iff_infix (magic p : List Byte) :
    containsBytes magic p = true ↔ magic <:+: p := by
  induction p with
  | nil => simp [containsBytes]
  | cons b p ih =>
    rw [containsBytes, Bool.or_eq_true, List.isPrefixOf_iff_prefix, ih, List.infix_cons_iff]

/-- The magic is found exactly when it stands at some offset, byte for byte (R200). -/
theorem containsBytes_iff (magic p : List Byte) :
    containsBytes magic p = true ↔
      ∃ i, i + magic.length ≤ p.length ∧ ∀ j, j < magic.length → p[i + j]? = magic[j]? := by
  rw [containsBytes_iff_infix, List.infix_iff_getElem?]
  refine exists_congr fun i => and_congr (by rw [Nat.add_comm]) (forall₂_congr fun j hj => ?_)
  rw [Nat.add_comm j i, List.getElem?_eq_getElem hj]

theorem interpret_version_waiting {p : List Byte} {s : State}
    (hm : containsBytes s.cfg.versionMagic p = true) (hi : s.initState = .waitVersion) :
    interpret ⟨.version, p⟩ s = ({ s with initState := .requestButtonReporting }, true) := by
  simp [interpret, onVersion, hm, hi]

theorem interpret_version_not_waiting {p : List Byte} {s : State}
    (hm : containsBytes s.cfg.versionMagic p = true) (hi : s.initState ≠ .waitVersion) :
    interpret ⟨.version, p⟩ s = (s, false) := by
  simp [interpret, onVersion, hm, hi]

theorem interpret_version_mismatch {p : List Byte} {s : State}
    (hm : ¬ containsBytes s.cfg.versionMagic p = true) :
    interpret ⟨.version, p⟩ s = (diagnose .versionMismatch s, false) :=
  if_neg hm

/-- Settles O15: the three clauses are the three cases of `on_version`, the search read as R200
states it. -/
theorem versionFrameAcknowledges : Obligations.VersionFrameAcknowledges := by
  unfold Obligations.VersionFrameAcknowledges
  intro s p hw hs hp hl
  obtain ⟨buf, hbuf, hexec⟩ := exec_frame_fits (i := .version p)
    (ty := .version) rfl rfl hw hs hp hl
  rw [← containsBytes_iff]
  refine ⟨buf, hbuf, fun hm hi => ?_, fun hm hi => ?_, fun hm => ?_⟩
  · rw [hexec, interpret_version_waiting hm hi]
  · rw [hexec, interpret_version_not_waiting hm hi]
  · rw [hexec, interpret_version_mismatch hm]
    rfl

/-! ### UNKNOWN (R197) -/

theorem interpret_unknown (p : List Byte) (s : State) :
    interpret ⟨.unknown, p⟩ s = (s, false) := rfl

/-- Settles O16: the bytes of the instruction are the frame of its tag, and no handler runs. -/
theorem unknownFrameIsIgnored : Obligations.UnknownFrameIsIgnored := by
  unfold Obligations.UnknownFrameIsIgnored
  intro s tag p hw hs htag hp hl
  obtain ⟨buf, hbuf, hexec⟩ := exec_frame_fits (i := .unknown tag (tag :: p))
    (ty := .unknown) rfl htag hw hs hp hl
  rw [interpret_unknown] at hexec
  exact ⟨buf, hbuf, hexec⟩

end Sys2Proof.Machine
end

section
/-! PROOF. The report scheduler (R232 to R235): what the state step of each `hid_state` does, which
instructions run it, and the bytes of the reports it sends. -/

namespace Sys2Proof.Machine

/-! ### The bytes of an axis report (R64, R102, R103) -/

/-- The two bytes of `le16` as remainder and quotient by 256. -/
theorem le16_eq (p : I16) : le16 p = [BitVec.ofNat 8 p.toNat, BitVec.ofNat 8 (p.toNat / 256)] := by
  have low : p.extractLsb' 0 8 = BitVec.ofNat 8 p.toNat := rfl
  have high : p.extractLsb' 8 8 = BitVec.ofNat 8 (p.toNat / 256) := by
    rw [BitVec.extractLsb', Nat.shiftRight_eq_div_pow]
  rw [le16, low, high]

/-- Where `phys_map` is specified, the report carries it, whatever the free values are. -/
theorem physField_of_physMap {k : Nat} {v : Norm} {q : I16} (h : physMap v = some q) :
    physField k v = q := by
  rw [physField, h, Option.getD_some]

/-- The six data bytes of an axis report, each field free exactly where `phys_map` is unspecified
(U6). -/
theorem axisReportData_fields (k : Nat) (a b c : Norm) :
    ∃ pa pb pc : I16,
      (∀ q, physMap a = some q → pa = q) ∧ (∀ q, physMap b = some q → pb = q) ∧
      (∀ q, physMap c = some q → pc = q) ∧
      axisReportData k a b c =
        [BitVec.ofNat 8 pa.toNat, BitVec.ofNat 8 (pa.toNat / 256),
         BitVec.ofNat 8 pb.toNat, BitVec.ofNat 8 (pb.toNat / 256),
         BitVec.ofNat 8 pc.toNat, BitVec.ofNat 8 (pc.toNat / 256)] := by
  refine ⟨physField k a, physField (k + 1) b, physField (k + 2) c, fun _ => physField_of_physMap,
    fun _ => physField_of_physMap, fun _ => physField_of_physMap, ?_⟩
  rw [axisReportData, le16_eq, le16_eq, le16_eq]
  rfl

/-! ### The bytes of the button report (R65, R104, R239) -/

theorem cutMask_getLsbD (count : Nat) (m : Mask) (b : Nat) :
    (cutMask count m).getLsbD b = (decide (b < count) && m.getLsbD b) := by
  rw [cutMask, BitVec.getLsbD_and, BitVec.getLsbD_ofNat, Nat.testBit_two_pow_sub_one]
  rcases Nat.lt_or_ge b 16 with hb | hb
  · rw [decide_eq_true hb, Bool.true_and, Bool.and_comm]
  · rw [BitVec.getLsbD_of_ge m b hb, Bool.false_and, Bool.and_false]

/-- Button `8j + b` stands at bit `b` of byte `j`. -/
theorem packed_getLsbD (count : Nat) (m : Mask) (j : Nat) {b : Nat} (hb : b < 8) :
    ((cutMask count m).extractLsb' (8 * j) 8).getLsbD b =
      (decide (8 * j + b < count) && m.getLsbD (8 * j + b)) := by
  rw [BitVec.getLsbD_extractLsb', decide_eq_true hb, Bool.true_and, cutMask_getLsbD]

/-- Every admitted `BUTTON_COUNT` takes two bytes (R11). -/
theorem packButtons_bits {count : Nat} (hlo : 9 ≤ count) (hhi : count ≤ 16) (m : Mask) :
    ∃ b0 b1 : Byte,
      (∀ b, b < 8 → b0.getLsbD b = (decide (b < count) && m.getLsbD b)) ∧
      (∀ b, b < 8 → b1.getLsbD b = (decide (8 + b < count) && m.getLsbD (8 + b))) ∧
      packButtons count m = [b0, b1] := by
  have two_bytes : (count + 7) / 8 = 2 := by omega
  refine ⟨(cutMask count m).extractLsb' (8 * 0) 8, (cutMask count m).extractLsb' (8 * 1) 8,
    fun b hb => ?_, fun b hb => packed_getLsbD count m 1 hb, ?_⟩
  · rw [packed_getLsbD count m 0 hb, Nat.mul_zero, Nat.zero_add]
  · rw [packButtons, two_bytes]
    rfl

/-! ### The state steps, one equation per case -/

theorem hidStep_idle_dirty (now : Time) {s : State} (hs : s.hidState = .idle)
    (hd : live s ≠ s.submit) :
    hidStep now s = ({ s with submit := live s, hidState := .sendTranslation }, none) := by
  rw [hidStep, hs]
  exact if_neg hd

theorem hidStep_idle_clean (now : Time) {s : State} (hs : s.hidState = .idle)
    (hc : live s = s.submit) : hidStep now s = (s, none) := by
  rw [hidStep, hs]
  exact if_pos hc

theorem hidStep_sendTranslation (now : Time) {s : State} (hs : s.hidState = .sendTranslation) :
    hidStep now s = sendStep (translationReport s) .sendRotation 3 now s := by
  rw [hidStep, hs]
  rfl

theorem hidStep_sendRotation (now : Time) {s : State} (hs : s.hidState = .sendRotation) :
    hidStep now s = sendStep (rotationReport s) .sendButtons 3 now s := by
  rw [hidStep, hs]
  rfl

theorem hidStep_sendButtons (now : Time) {s : State} (hs : s.hidState = .sendButtons) :
    hidStep now s = sendStep (buttonsReport s) .idle 0 now s := by
  rw [hidStep, hs]
  rfl

/-! ### Which instructions run the state step -/

/-- With no inbound report the LED drain adds nothing to the state step (R231). -/
theorem exec_hidTick_none (now : Time) {s : State} (hw : s.cfg.wellFormed = true) :
    exec (.hidTick now none) s = reported (hidStep now s) :=
  configured_ok _ hw

/-- The tick and the row of the report that `hid_state` selects both run the gated send of that
state: open from 8 ms after the last send on, closed before (R237). -/
theorem exec_gatedSend {i row : Instr} {now : Time} {s : State} {cur after : HidState} {r : Report}
    {k : Nat} (hw : s.cfg.wellFormed = true) (hs : s.hidState = cur)
    (hstep : hidStep now s = sendStep r after k now s)
    (hrow : exec row s = configured s (reported (sendOf cur now s)))
    (hi : i = .hidTick now none ∨ i = row) :
    (8 ≤ (now - s.lastSendTime).toNat → exec i s = .next { s with
      usbTx := s.usbTx ++ [r], lastSendTime := now, hidState := after
      draws := s.draws + k, ret := .report (some r) }) ∧
    ((now - s.lastSendTime).toNat < 8 → exec i s = .next { s with ret := .report none }) := by
  have runs_step : exec i s = reported (sendStep r after k now s) := by
    rw [← hstep]
    rcases hi with rfl | rfl
    · exact exec_hidTick_none now hw
    · rw [hrow, configured_ok _ hw, sendOf, if_pos hs]
  rw [runs_step, ← intervalElapsed_iff, ← Nat.not_le, ← intervalElapsed_iff]
  rcases sendStep_cases r after k now s with ⟨helapsed, hsend⟩ | ⟨hearly, hsend⟩
  · rw [hsend]
    exact ⟨fun _ => rfl, fun hn => absurd helapsed hn⟩
  · rw [hsend]
    exact ⟨fun he => absurd he (hearly ▸ Bool.false_ne_true), fun _ => rfl⟩

/-! ### The statements -/

/-- Settles O28: the live snapshot is the seven fields, and the two clauses are the two cases of its
comparison with `submit`. -/
theorem idleTickLatchesADirtySnapshot : Obligations.IdleTickLatchesADirtySnapshot := by
  unfold Obligations.IdleTickLatchesADirtySnapshot
  intro s now hw hs
  rw [exec_hidTick_none now hw]
  constructor
  · intro hd
    rw [hidStep_idle_dirty now hs hd]
    rfl
  · intro hc
    rw [hidStep_idle_clean now hs hc]
    rfl

/-- Settles O29: the gated send of this state, its data read field by field. -/
theorem translationReportIsSent : Obligations.TranslationReportIsSent := by
  unfold Obligations.TranslationReportIsSent
  intro s now i hw hs hi
  obtain ⟨sends, waits⟩ := exec_gatedSend hw hs (hidStep_sendTranslation now hs) rfl hi
  obtain ⟨px, py, pz, hx, hy, hz, hdata⟩ :=
    axisReportData_fields s.draws s.submit.axes.x s.submit.axes.y s.submit.axes.z
  rw [translationReport, hdata] at sends
  exact ⟨fun hlate => ⟨px, py, pz, s.draws + 3, hx, hy, hz, sends hlate⟩, waits⟩

/-- Settles O30: as O29, with u, v, w. -/
theorem rotationReportIsSent : Obligations.RotationReportIsSent := by
  unfold Obligations.RotationReportIsSent
  intro s now i hw hs hi
  obtain ⟨sends, waits⟩ := exec_gatedSend hw hs (hidStep_sendRotation now hs) rfl hi
  obtain ⟨pu, pv, pw, hu, hv, hw', hdata⟩ :=
    axisReportData_fields s.draws s.submit.axes.u s.submit.axes.v s.submit.axes.w
  rw [rotationReport, hdata] at sends
  exact ⟨fun hlate => ⟨pu, pv, pw, s.draws + 3, hu, hv, hw', sends hlate⟩, waits⟩

/-- Settles O31: the gated send of this state; the admitted counts give exactly two bytes, and no
value is drawn. -/
theorem buttonReportIsSent : Obligations.ButtonReportIsSent := by
  unfold Obligations.ButtonReportIsSent
  intro s now i hw hs hi
  obtain ⟨-, -, -, ⟨hlo, hhi⟩, -⟩ := (Config.wellFormed_iff s.cfg).mp hw
  obtain ⟨sends, waits⟩ := exec_gatedSend hw hs (hidStep_sendButtons now hs) rfl hi
  obtain ⟨b0, b1, hb0, hb1, hdata⟩ := packButtons_bits hlo hhi s.submit.buttons
  rw [buttonsReport, hdata] at sends
  exact ⟨fun hlate => ⟨b0, b1, hb0, hb1, sends hlate⟩, waits⟩

end Sys2Proof.Machine
end

section
/-! PROOF. The system operations (R260, R261): what SOFT_RESET writes, and BEEP with the row of its
command. -/

namespace Sys2Proof.Machine

/-! ### SOFT_RESET -/

theorem exec_softReset {s : State} (hw : s.cfg.wellFormed = true) :
    exec .softReset s = .next (answer .unit (softReset s)) :=
  configured_ok _ hw

/-- Settles O40: every register the statement does not list is carried over by the record update of
`softReset`. -/
theorem softResetWritesTheEngine : Obligations.SoftResetWritesTheEngine := by
  unfold Obligations.SoftResetWritesTheEngine
  intro s hw
  rw [exec_softReset hw]
  rfl

/-! ### BEEP -/

/-- The operation and the row that R101 refers to it have one meaning, ungated in every state. -/
theorem exec_transmits_beep {i : Instr} {s : State} (hw : s.cfg.wellFormed = true)
    (hi : i = .beep ∨ i = .cmdBeep) :
    exec i s = .next (answer (.command (some bytesCmdBeep)) (uartSend bytesCmdBeep s)) := by
  rcases hi with rfl | rfl
  · exact configured_ok (transmitted (transmitBeep s)) hw
  · exact configured_ok (transmitted (transmitBeep s)) hw

/-- Settles O27: one send of the bytes of the beep command, recorded as the returned command. -/
theorem beepTransmitsBeep : Obligations.BeepTransmitsBeep := by
  unfold Obligations.BeepTransmitsBeep
  intro s i hw hi
  rw [exec_transmits_beep hw hi]
  rfl

end Sys2Proof.Machine
end

section
/-! PROOF. The encoding (R90, R91, R101, R105): the decoder and the encoder on the bytes of a frame,
and each of them as the inverse of the other. -/

namespace Sys2Proof

/-! ### The bytes of a frame -/

theorem decodeFrame_frameBytes (tag : Byte) {p : List Byte} (hp : terminator ∉ p) :
    decodeFrame (frameBytes tag p) = .ok (frameInstr tag p) := by
  rw [frameBytes, decodeFrame, Laws.splitTerminator_append hp]

/-- A frame that decodes is one tag, a payload and one terminator (R90). -/
theorem decodeFrame_ok {bytes : List Byte} {i : Instr} (h : decodeFrame bytes = .ok i) :
    ∃ tag p, bytes = frameBytes tag p ∧ i = frameInstr tag p := by
  unfold decodeFrame at h
  split at h
  · cases h
  · next tag rest =>
    split at h
    · cases h
    · next p hsplit =>
      cases h
      exact ⟨tag, p, by rw [(Laws.splitTerminator_spec hsplit).2, frameBytes], rfl⟩
    · cases h

/-- `classify` by the tag it was given (R141): each known type has one tag. -/
theorem classify_cases (tag : Byte) :
    (tag = 0x76#8 ∧ classify tag = .version) ∨ (tag = 0x6B#8 ∧ classify tag = .keypress) ∨
    (tag = 0x64#8 ∧ classify tag = .positionRotation) ∨
    (tag = 0x6D#8 ∧ classify tag = .modeChange) ∨
    (tag = 0x7A#8 ∧ classify tag = .zero) ∨ (tag = 0x71#8 ∧ classify tag = .sensitivityChange) ∨
    classify tag = .unknown := by
  by_cases h : tag ∈ knownTags
  · simp only [knownTags, List.mem_cons, List.not_mem_nil, or_false] at h
    rcases h with rfl | rfl | rfl | rfl | rfl | rfl <;> simp [classify]
  · simp [Machine.classify_of_notMem_knownTags h]

/-- The frame instruction of a tag encodes to the frame with that tag (R91). -/
theorem encode_frameInstr (tag : Byte) (p : List Byte) :
    encode (frameInstr tag p) = .frame (frameBytes tag p) := by
  rcases classify_cases tag with ⟨rfl, -⟩ | ⟨rfl, -⟩ | ⟨rfl, -⟩ | ⟨rfl, -⟩ | ⟨rfl, -⟩ | ⟨rfl, -⟩ | h
  case inr.inr.inr.inr.inr.inr => rw [frameInstr, h]; rfl
  all_goals rfl

/-- An Unknown instruction carries its tag as the first of its bytes (R106). -/
theorem unknown_wellFormed {tag : Byte} {bytes : List Byte}
    (h : (Instr.unknown tag bytes).wellFormed = true) :
    ∃ p, bytes = tag :: p ∧ classify tag = .unknown ∧ terminator ∉ p := by
  simp only [Instr.wellFormed, Bool.and_eq_true, Bool.not_eq_true', decide_eq_true_eq] at h
  obtain ⟨⟨htag, hhead⟩, hp⟩ := h
  obtain ⟨p, rfl⟩ := List.head?_eq_some_iff.1 hhead
  exact ⟨p, rfl, (Laws.classify_unknown_iff tag).2 htag, (Laws.payloadWellFormed_iff p).1 hp⟩

/-! ### The statements -/

/-- Settles O1: a frame splits at its only terminator; the other rows have fixed bytes, each told
apart from the rest by the decoder's comparisons. -/
theorem encodedInstructionDecodes : Obligations.EncodedInstructionDecodes := by
  unfold Obligations.EncodedInstructionDecodes
  intro i hi
  cases i with
  | version p => exact decodeFrame_frameBytes 0x76#8 ((Laws.payloadWellFormed_iff p).1 hi)
  | keypress p => exact decodeFrame_frameBytes 0x6B#8 ((Laws.payloadWellFormed_iff p).1 hi)
  | posrot p => exact decodeFrame_frameBytes 0x64#8 ((Laws.payloadWellFormed_iff p).1 hi)
  | mode p => exact decodeFrame_frameBytes 0x6D#8 ((Laws.payloadWellFormed_iff p).1 hi)
  | zero p => exact decodeFrame_frameBytes 0x7A#8 ((Laws.payloadWellFormed_iff p).1 hi)
  | sens p => exact decodeFrame_frameBytes 0x71#8 ((Laws.payloadWellFormed_iff p).1 hi)
  | unknown tag bytes =>
    obtain ⟨p, rfl, htag, hp⟩ := unknown_wellFormed hi
    refine (decodeFrame_frameBytes tag hp).trans ?_
    rw [frameInstr, htag]
  | nibble | cmdReset | cmdGetVersion | cmdButtonReporting | cmdSetMode | cmdZero | cmdBeep => rfl
  | reportTranslation | reportRotation | reportButtons | reportLed => rfl
  | rxByte | initTick | hidTick | softReset | beep => rfl

theorem encode_of_decodeCommand {now : Time} {bytes : List Byte} {i : Instr}
    (h : decodeCommand now bytes = .ok i) :
    encode i = .command now bytes ∨ (i = .cmdBeep ∧ bytes = bytesCmdBeep) := by
  unfold decodeCommand at h
  split_ifs at h with _ _ _ _ _ h6 <;> cases h
  on_goal 6 => exact .inr ⟨rfl, h6⟩
  all_goals
    subst bytes
    exact .inl rfl

theorem encode_of_decodeSendReport {now : Time} {id : Byte} {i : Instr}
    (h : decodeSendReport now id = .ok i) : encode i = .sendReport now id := by
  unfold decodeSendReport at h
  split_ifs at h with h1 h2 h3 <;> cases h
  · rw [h1]; rfl
  · rw [h2]; rfl
  · rw [h3]; rfl

theorem encode_of_decodeHostReport {now : Time} {bytes : List Byte} {i : Instr}
    (h : decodeHostReport now bytes = .ok i) : encode i = .hostReport now bytes := by
  unfold decodeHostReport at h
  split at h
  · split_ifs at h with hid
    cases h
    rw [hid]; rfl
  · cases h

/-- Settles O2: each decoder gives the instruction whose table entry it compared the bytes with;
only the beep command's time is dropped. -/
theorem decodedRequestIsItsEncoding : Obligations.DecodedRequestIsItsEncoding := by
  unfold Obligations.DecodedRequestIsItsEncoding
  intro r i h
  cases r with
  | frame bytes =>
    obtain ⟨tag, p, rfl, rfl⟩ := decodeFrame_ok h
    exact .inl (encode_frameInstr tag p)
  | command now bytes =>
    rcases encode_of_decodeCommand h with he | ⟨hi, rfl⟩
    · exact .inl he
    · exact .inr ⟨hi, now, rfl⟩
  | sendReport now id => exact .inl (encode_of_decodeSendReport h)
  | hostReport now bytes => exact .inl (encode_of_decodeHostReport h)
  | character | rxByte | initTick | hidTick | softReset | beep => cases h; exact .inl rfl

/-- Settles O3: the words are closed, so the decoder runs on each. -/
theorem writtenOutWordsDecode : Obligations.WrittenOutWordsDecode := by
  unfold Obligations.WrittenOutWordsDecode
  exact ⟨rfl, rfl, rfl, rfl, rfl, rfl⟩

end Sys2Proof
end

section
/-! PROOF. The frame of every instruction (R20, R45, R60, R77): which component an instruction
belongs to, what each component may write, and what follows for the configuration and the receive
buffer. -/

namespace Sys2Proof.Machine

/-! ### Components -/

/-- The parts of the block that instructions belong to (R20). -/
inductive Component where
  | scheduler | receiver | resetRequest | sequencer | nibbleCodec | beeper

/-- The component whose operation an instruction is. -/
def componentOf : Instr → Component
  | .version _ | .keypress _ | .posrot _ | .mode _ | .zero _ | .sens _ | .unknown _ _ | .rxByte _ =>
    .receiver
  | .nibble _ => .nibbleCodec
  | .cmdReset _ | .cmdGetVersion _ | .cmdButtonReporting _ | .cmdSetMode _ | .cmdZero _
  | .initTick _ => .sequencer
  | .reportTranslation _ | .reportRotation _ | .reportButtons _ | .reportLed _ | .hidTick _ _ =>
    .scheduler
  | .softReset => .resetRequest
  | .cmdBeep | .beep => .beeper

/-- `t` differs from `s` at most in the registers of the component (R20, R45, R77) and in the
returned value. -/
def Component.Writes : Component → State → State → Prop
  | .scheduler, s, t =>
    t = { s with hidState := t.hidState, submit := t.submit, lastSendTime := t.lastSendTime,
                 led := t.led, usbTx := t.usbTx, draws := t.draws, ret := t.ret }
  | .receiver, s, t =>
    t = { s with rxState := t.rxState, rxType := t.rxType, rxLen := t.rxLen, rxBuf := t.rxBuf,
                 initState := t.initState, mode := t.mode, sensT := t.sensT, sensR := t.sensR,
                 buttons := t.buttons, raw := t.raw, diag := t.diag, ret := t.ret }
  | .resetRequest, s, t =>
    t = { s with initState := t.initState, mode := t.mode, sensT := t.sensT, sensR := t.sensR,
                 buttons := t.buttons, raw := t.raw, lastResetTime := t.lastResetTime,
                 gateStart := t.gateStart, gateLen := t.gateLen, ret := t.ret }
  | .sequencer, s, t =>
    t = { s with initState := t.initState, lastResetTime := t.lastResetTime,
                 gateStart := t.gateStart, gateLen := t.gateLen, uartTx := t.uartTx,
                 diag := t.diag, ret := t.ret }
  | .nibbleCodec, s, t => t = { s with ret := t.ret }
  | .beeper, s, t => t = { s with uartTx := t.uartTx, ret := t.ret }

theorem Component.writes_answer (c : Component) (r : Ret) (s : State) :
    c.Writes s (answer r s) := by
  cases c <;> rfl

theorem componentOf_eq_receiver_iff (i : Instr) :
    componentOf i = .receiver ↔ receivedBytes i ≠ [] := by
  cases i <;> simp [componentOf, receivedBytes, frameBytes]

theorem receivedBytes_of_frameMessage {i : Instr} (h : frameMessage i ≠ none) :
    receivedBytes i ≠ [] := by
  cases i <;> simp [frameMessage, receivedBytes, frameBytes] at h ⊢

theorem componentOf_sequencerAt {i : Instr} {now : Time} (h : sequencerAt i now) :
    componentOf i = .sequencer := by
  rcases h with rfl | rfl | rfl | rfl | rfl | rfl <;> rfl

theorem componentOf_reportAt {i : Instr} {now : Time} (h : reportAt i now) :
    componentOf i = .scheduler := by
  rcases h with rfl | rfl | rfl <;> rfl

/-- Each component writes only its own registers: every shared operation does. -/
theorem exec_writes {i : Instr} {s t : State} (h : exec i s = .next t) :
    (componentOf i).Writes s t := by
  cases exec_ran h with
  | same i r _ => exact Component.writes_answer _ r s
  | bytes i t hb hrecv =>
    rw [(componentOf_eq_receiver_iff i).2 hb]
    exact receive_frame hrecv
  | tick i now hi _ _ =>
    obtain ⟨ini, lrt, gs, gl, tx, dg, e⟩ := initTick_frame now s
    rw [componentOf_sequencerAt hi, e]
    rfl
  | beep i hi => rcases hi with rfl | rfl <;> rfl
  | send i now hi _ =>
    obtain ⟨h, sub, lst, tx, k, e⟩ := hidStep_frame now s
    rw [componentOf_reportAt hi, e]
    rfl
  | hid i now inbound hi =>
    obtain ⟨h, sub, lst, tx, k, e⟩ := hidStep_frame now s
    obtain ⟨l, k', e'⟩ := ledDrain_frame inbound (hidStep now s).1
    rw [e', e]
    rcases hi with rfl | ⟨_, rfl, -⟩ <;> rfl
  | reset => rfl

/-- Settles O52: each clause names the instructions of one component. -/
theorem componentsKeepToTheirRegisters : Obligations.ComponentsKeepToTheirRegisters := by
  unfold Obligations.ComponentsKeepToTheirRegisters
  intro i s t h
  have writes {c : Component} (hc : componentOf i = c) : c.Writes s t := hc ▸ exec_writes h
  refine ⟨fun hi => writes (c := .scheduler) ?_, fun hi => writes (c := .receiver) ?_,
    fun hi => writes (c := .resetRequest) ?_, fun hi => writes (c := .sequencer) ?_,
    fun hi => writes (c := .nibbleCodec) ?_, fun hi => writes (c := .beeper) ?_⟩
  · rcases hi with ⟨now, rfl | rfl | rfl | ⟨inbound, rfl⟩⟩ | ⟨l, rfl⟩ <;> rfl
  · rcases hi with hi | ⟨b, rfl⟩
    · exact (componentOf_eq_receiver_iff i).2 (receivedBytes_of_frameMessage hi)
    · rfl
  · rw [hi]; rfl
  · obtain ⟨now, hi⟩ := hi
    exact componentOf_sequencerAt hi
  · obtain ⟨c, rfl⟩ := hi
    rfl
  · rcases hi with rfl | rfl <;> rfl

/-! ### The configuration and the schedule -/

theorem Component.Writes.cfg_schedule {c : Component} {s t : State} (h : c.Writes s t) :
    t.cfg = s.cfg ∧ t.schedule = s.schedule := by
  cases c <;> (rw [show t = _ from h]; exact ⟨rfl, rfl⟩)

/-- Settles O7: the configuration and the schedule are no component's registers. -/
theorem configurationIsNeverWritten : Obligations.ConfigurationIsNeverWritten := by
  unfold Obligations.ConfigurationIsNeverWritten
  intro i s t h
  exact (exec_writes h).cfg_schedule

/-! ### The receive buffer -/

theorem Component.Writes.rxBuf {c : Component} {s t : State} (h : c.Writes s t)
    (hc : c ≠ .receiver) : t.rxBuf = s.rxBuf := by
  cases c
  case receiver => exact absurd rfl hc
  all_goals rw [show t = _ from h]

theorem memRead_congr {s t : State} {k : Nat} (hcfg : t.cfg = s.cfg)
    (hk : Memory.read t.rxBuf k = Memory.read s.rxBuf k) : memRead k t = memRead k s := by
  rw [memRead, memRead, hcfg, hk]

theorem rxComplete_some (s : State) (m : Message) :
    rxComplete (s, some m) = answer (.rx (some m) (interpret m s).2) (interpret m s).1 := rfl

theorem rxComplete_rxBuf (r : State × Option Message) : (rxComplete r).rxBuf = r.1.rxBuf := by
  obtain ⟨u, m⟩ := r
  cases m with
  | none => rfl
  | some m =>
    obtain ⟨_, _, _, _, _, _, _, e⟩ := interpret_frame m u
    rw [rxComplete_some, answer_rxBuf, e]

/-- A received byte writes at most the byte at `rx_len`, inside the buffer and only while a message
is read (R143, R61). -/
theorem rxByte_rxBuf {b : Byte} {s t : State} (h : rxByte b s = .next t) :
    t.rxBuf = s.rxBuf ∨
    (s.rxState = .readingMessage ∧ s.rxLen < s.cfg.rxCapacity ∧
      ∃ v, t.rxBuf = Memory.write s.rxBuf s.rxLen v) := by
  obtain ⟨r, hf, rfl⟩ := rxByte_next h
  rw [rxComplete_rxBuf]
  rcases feed_next hf with ⟨-, rfl⟩ | ⟨hs, -, hl, rfl⟩ | ⟨hs, -, hl, rfl⟩ | ⟨-, -, -, rfl⟩ |
    ⟨-, -, rfl⟩ | ⟨-, -, rfl⟩
  case inr.inl => exact .inr ⟨hs, hl, 0#8, rfl⟩
  case inr.inr.inl => exact .inr ⟨hs, by omega, b, rfl⟩
  all_goals exact .inl rfl

/-- No received byte is stored at `RX_CAPACITY` or above (R61). -/
theorem receive_keeps_above_capacity {bs : List Byte} {s t : State} {k : Nat}
    (h : receive bs s = .next t) (hk : s.cfg.rxCapacity ≤ k) :
    Memory.read t.rxBuf k = Memory.read s.rxBuf k := by
  refine (receive_induction (P := fun u => u.cfg = s.cfg ∧
    Memory.read u.rxBuf k = Memory.read s.rxBuf k) ?_ ⟨rfl, rfl⟩ h).2
  rintro b u v ⟨hcfg, hread⟩ hv
  refine ⟨by rw [rxByte_frame hv]; exact hcfg, ?_⟩
  rcases rxByte_rxBuf hv with e | ⟨-, hl, x, e⟩
  · rw [e, hread]
  · rw [hcfg] at hl
    rw [e, Memory.read_write_other _ _ _ _ (by omega), hread]

/-- Settles O53: an instruction that receives nothing is of another component; a received byte
writes at `rx_len` at most. -/
theorem bufferIsWrittenOnlyAtItsEnd : Obligations.BufferIsWrittenOnlyAtItsEnd := by
  unfold Obligations.BufferIsWrittenOnlyAtItsEnd
  intro i s t h
  have hcfg := (exec_writes h).cfg_schedule.1
  have untouched (hb : receivedBytes i = []) : t.rxBuf = s.rxBuf :=
    (exec_writes h).rxBuf fun hc => (componentOf_eq_receiver_iff i).1 hc hb
  refine ⟨fun hb k => memRead_congr hcfg (by rw [untouched hb]), ?_, ?_⟩
  · rintro b rfl
    rw [exec_rxByte b (exec_wellFormed h)] at h
    rcases rxByte_rxBuf h with e | ⟨hs, -, v, e⟩
    · exact ⟨fun _ k => memRead_congr hcfg (by rw [e]), fun k _ => memRead_congr hcfg (by rw [e])⟩
    · exact ⟨fun hn => absurd hs hn, fun k hk =>
        memRead_congr hcfg (by rw [e, Memory.read_write_other _ _ _ _ hk])⟩
  · intro k hk
    by_cases hb : receivedBytes i = []
    · rw [untouched hb]
    · rw [exec_receives s hb] at h
      exact receive_keeps_above_capacity (configured_next h).2 hk

end Sys2Proof.Machine
end

section
/-! PROOF. The ticks and rows of the sequencer that command nothing new, and the stall (R161, R164,
R167, R169, R170, R290). -/

namespace Sys2Proof.Machine

/-! ### The state step of a tick -/

theorem initTick_of_stuck {now : Time} {s : State} (h : stuck now s = true) :
    initTick now s = initStep now (takeStall s) := by
  rw [initTick, stuckCheck, if_pos h]

theorem not_stuck_of_done {now : Time} {s : State} (hs : s.initState = .done) :
    ¬ stuck now s = true := fun h =>
  (stuck_true h).2.1 hs

theorem initStep_waiting (now : Time) {s : State}
    (hs : s.initState = .waitVersion ∨ s.initState = .waitSetMode ∨ s.initState = .waitZero ∨
      s.initState = .done) : initStep now s = (s, none) := by
  rcases hs with hs | hs | hs | hs <;> (rw [initStep, hs])

/-! ### The statements -/

/-- Settles O24: neither a Wait state in time nor `Done` is stalled, and their steps are empty. -/
theorem waitingTicksDoNothing : Obligations.WaitingTicksDoNothing := by
  unfold Obligations.WaitingTicksDoNothing
  intro s now hw hs
  have not_stalled : ¬ stuck now s = true := by
    rcases hs with hs | ⟨-, hle⟩
    · exact not_stuck_of_done hs
    · exact not_stuck_of_elapsed_le hle
  rw [exec_selected hw (.inl rfl) nofun, initTick_of_not_stuck not_stalled,
    initStep_waiting now (by tauto)]
  rfl

/-- Settles O25: the stall leaves the block in `Reset`, so the Reset step is what the tick selects.
-/
theorem stallRestartsTheHandshake : Obligations.StallRestartsTheHandshake := by
  unfold Obligations.StallRestartsTheHandshake
  intro s now i hw hreset hdone hlate hi
  have stalled : stuck now s = true := (stuck_iff now s).2 ⟨hreset, hdone, hlate⟩
  have runs_tick : exec i s = transmitted (initTick now s) := by
    rcases hi with rfl | rfl
    · exact exec_selected hw (.inl rfl) nofun
    · refine exec_selected hw (.inr (.inl rfl)) fun w h => ?_
      rw [← Option.some.inj h, stuckCheck, if_pos stalled]
      rfl
  rw [runs_tick, initTick_of_stuck stalled, initStep_reset now (takeStall_initState s)]
  rfl

/-- The row of a command whose step the tick does not select does nothing. -/
theorem exec_unselected {i : Instr} {now : Time} {s : State} {own : InitState}
    (hw : s.cfg.wellFormed = true) (hi : sequencerAt i now) (ho : ownStep i = some own)
    (hne : (stuckCheck now s).initState ≠ own) :
    exec i s = .next { s with ret := .command none } := by
  have row_unselected : configured s (transmitted (tickOf own now s)) =
      .next { s with ret := .command none } := by
    rw [configured_ok _ hw, tickOf, if_neg hne]
    rfl
  rcases hi with rfl | rfl | rfl | rfl | rfl | rfl
  case inl => cases ho
  all_goals
    cases ho
    exact row_unselected

/-- Settles O26: a stall selects the Reset step, and without one the step is that of `init_state`.
-/
theorem unselectedCommandDoesNothing : Obligations.UnselectedCommandDoesNothing := by
  unfold Obligations.UnselectedCommandDoesNothing
  intro s now i own hw hi hns
  have unselected : (stuckCheck now s).initState ≠ own := by
    rcases hns with ⟨hown, hreset, hdone, hlate⟩ | ⟨hown, hs⟩
    · rw [stuckCheck, if_pos ((stuck_iff now s).2 ⟨hreset, hdone, hlate⟩)]
      exact hown.symm
    · have not_stalled : ¬ stuck now s = true := by
        rcases hs with hs | hs | hs
        · exact not_stuck_of_reset hs
        · exact not_stuck_of_done hs
        · exact not_stuck_of_elapsed_le hs
      rwa [stuckCheck, if_neg not_stalled]
  rcases hi with ⟨rfl, rfl⟩ | ⟨rfl, rfl⟩ | ⟨rfl, rfl⟩ | ⟨rfl, rfl⟩ | ⟨rfl, rfl⟩ <;>
    exact exec_unselected hw (by simp [sequencerAt]) rfl unselected

end Sys2Proof.Machine
end

section
/-! PROOF. What the scheduler does over one instruction and over one step (R231, R237, R238, R240,
R241): the LED drain, the spacing and the order of the reports, the snapshot in flight. -/

namespace Sys2Proof.Machine

/-! ### Rows that do nothing -/

theorem reported_sendOf_of_ne {want : HidState} (now : Time) {s : State}
    (hw : s.cfg.wellFormed = true) (h : s.hidState ≠ want) :
    configured s (reported (sendOf want now s)) = .next { s with ret := .report none } := by
  rw [configured_ok _ hw, sendOf, if_neg h]
  rfl

/-- Settles O32: each row is `sendOf` of its own state. -/
theorem unselectedReportDoesNothing : Obligations.UnselectedReportDoesNothing := by
  unfold Obligations.UnselectedReportDoesNothing
  intro s now hw
  exact ⟨reported_sendOf_of_ne now hw, reported_sendOf_of_ne now hw, reported_sendOf_of_ne now hw⟩

/-! ### The LED drain (R238) -/

theorem setLed_of_ne {l : Byte} (h0 : l ≠ 0#8) (h1 : l ≠ 1#8) (s : State) :
    setLed l s = { s with led := Config.freeBit s.draws, draws := s.draws + 1 } := by
  rw [setLed, if_neg h0, if_neg h1]

theorem ledDrain_of_not_led {r : List Byte} (h : r.length ≠ 2 ∨ r.head? ≠ some reportIdLed)
    (s : State) : ledDrain (some r) s = s := by
  match r with
  | [] | [_] | _ :: _ :: _ :: _ => rfl
  | [id, l] => exact if_neg (by simpa using h)

/-- The drain neither reads nor writes the returned value. -/
theorem ledDrain_answer (inbound : Option (List Byte)) (r : Ret) (s : State) :
    ledDrain inbound (answer r s) = answer r (ledDrain inbound s) := by
  unfold ledDrain setLed
  repeat' split
  all_goals rfl

/-- What an inbound report adds to a tick is the drain, after it. -/
theorem exec_hidTick_inbound {s t : State} {now : Time} (inbound : Option (List Byte))
    (h : exec (.hidTick now none) s = .next t) :
    exec (.hidTick now inbound) s = .next (ledDrain inbound t) := by
  have hw := exec_wellFormed h
  rw [exec_hidTick_none now hw] at h
  rw [reported_next h, ledDrain_answer]
  exact configured_ok _ hw

/-- The row of an LED report is the tick it is offered to, then the drain. -/
theorem exec_reportLed {s t : State} {l : LedReport} (h : exec (.hidTick l.now none) s = .next t) :
    exec (.reportLed l) s = .next (setLed l.value t) :=
  exec_hidTick_inbound (some [reportIdLed, l.value]) h

/-- Settles O33: every clause is a case of the drain, applied to what the tick leaves. -/
theorem ledReportSetsTheFlag : Obligations.LedReportSetsTheFlag := by
  unfold Obligations.LedReportSetsTheFlag
  constructor
  · intro s t now h
    refine ⟨exec_hidTick_inbound _ h, exec_hidTick_inbound _ h, fun l h0 h1 => ?_, fun r hr => ?_⟩
    · refine ⟨Config.freeBit t.draws, t.draws + 1, ?_⟩
      rw [← setLed_of_ne h0 h1]
      exact exec_hidTick_inbound _ h
    · rw [exec_hidTick_inbound _ h, ledDrain_of_not_led hr]
  · intro s l hw
    obtain ⟨t, tick⟩ : ∃ t, exec (.hidTick l.now none) s = .next t :=
      ⟨_, exec_hidTick_none l.now hw⟩
    refine ⟨t, tick, fun h => ?_, fun h => ?_, fun h0 h1 => ?_⟩
    · rw [exec_reportLed tick, h]
      rfl
    · rw [exec_reportLed tick, h]
      rfl
    · refine ⟨Config.freeBit t.draws, t.draws + 1, ?_⟩
      rw [exec_reportLed tick, setLed_of_ne h0 h1]

/-! ### The scheduler's registers over one instruction -/

/-- The two states agree on the scheduler's registers and on the report stream, `led` apart. -/
def SameScheduler (s t : State) : Prop :=
  t.hidState = s.hidState ∧ t.submit = s.submit ∧ t.lastSendTime = s.lastSendTime ∧
  t.usbTx = s.usbTx

theorem Component.Writes.sameScheduler {c : Component} {s t : State} (h : c.Writes s t)
    (hc : c ≠ .scheduler) : SameScheduler s t := by
  cases c
  case scheduler => exact absurd rfl hc
  all_goals
    rw [show t = _ from h]
    exact ⟨rfl, rfl, rfl, rfl⟩

theorem sameScheduler_ledDrain (inbound : Option (List Byte)) (s : State) :
    SameScheduler s (ledDrain inbound s) := by
  obtain ⟨l, k, e⟩ := ledDrain_frame inbound s
  rw [e]
  exact ⟨rfl, rfl, rfl, rfl⟩

/-- Over an instruction the scheduler stays as it is or takes the one state step at the
instruction's time (R231). -/
theorem exec_scheduler {i : Instr} {s t : State} (h : exec i s = .next t) :
    SameScheduler s t ∨
    ∃ now, instrTime i = some now ∧ SameScheduler (hidStep now s).1 t := by
  by_cases hc : componentOf i = .scheduler
  on_goal 2 => exact .inl ((exec_writes h).sameScheduler hc)
  cases exec_ran h with
  | same i r _ => exact .inl ⟨rfl, rfl, rfl, rfl⟩
  | bytes i t hb _ =>
    rw [(componentOf_eq_receiver_iff i).2 hb] at hc
    cases hc
  | tick i now hi _ _ =>
    rw [componentOf_sequencerAt hi] at hc
    cases hc
  | beep i hi => rcases hi with rfl | rfl <;> cases hc
  | send i now hi _ =>
    refine .inr ⟨now, ?_, rfl, rfl, rfl, rfl⟩
    rcases hi with rfl | rfl | rfl <;> rfl
  | hid i now inbound hi =>
    refine .inr ⟨now, ?_, sameScheduler_ledDrain inbound _⟩
    rcases hi with rfl | ⟨_, rfl, -⟩ <;> rfl
  | reset => cases hc

/-! ### Spacing (R237) and the snapshot in flight (R240, R243) -/

/-- Settles O49: a state step sends at most one report, and only with the interval elapsed. -/
theorem reportsAreSpaced : Obligations.ReportsAreSpaced := by
  unfold Obligations.ReportsAreSpaced
  intro i s t h
  rcases exec_scheduler h with ⟨-, -, hlast, htx⟩ | ⟨now, htime, -, -, hlast, htx⟩
  · exact .inl ⟨htx, hlast⟩
  · rw [htx, hlast]
    rcases hidStep_cases now s with
      ⟨-, -, e⟩ | ⟨-, -, e⟩ | ⟨-, -, e⟩ | ⟨-, hel, e⟩ | ⟨-, hel, e⟩ | ⟨-, hel, e⟩ <;> rw [e]
    · exact .inl ⟨rfl, rfl⟩
    · exact .inl ⟨rfl, rfl⟩
    · exact .inl ⟨rfl, rfl⟩
    all_goals exact .inr ⟨now, _, htime, rfl, rfl, (intervalElapsed_iff now s).1 hel⟩

/-- Settles O50: a state step latches only from `Idle`, and moves along the one edge out of its
state. -/
theorem snapshotIsHeldInFlight : Obligations.SnapshotIsHeldInFlight := by
  unfold Obligations.SnapshotIsHeldInFlight
  intro i s t h
  rcases exec_scheduler h with ⟨hhid, hsub, -, -⟩ | ⟨now, -, hhid, hsub, -, -⟩
  · exact ⟨fun _ => hsub, .inl hhid, fun hn => absurd hsub hn⟩
  · rw [hhid, hsub]
    rcases hidStep_cases now s with
      ⟨-, -, e⟩ | ⟨hs, -, e⟩ | ⟨-, -, e⟩ | ⟨hs, -, e⟩ | ⟨hs, -, e⟩ | ⟨hs, -, e⟩ <;> rw [e]
    · exact ⟨fun _ => rfl, .inl rfl, fun hn => absurd rfl hn⟩
    · exact ⟨fun hn => absurd hs hn, .inr (.inl ⟨hs, rfl⟩), fun _ => ⟨rfl, rfl⟩⟩
    · exact ⟨fun _ => rfl, .inl rfl, fun hn => absurd rfl hn⟩
    all_goals exact ⟨fun _ => rfl, by simp [hs], fun hn => absurd rfl hn⟩

/-! ### What every instruction keeps, every step keeps -/

theorem step_wellFormed {s t : State} (h : step s = .next t) : s.cfg.wellFormed = true := by
  by_contra hn
  rw [step_refuses (Bool.eq_false_iff.2 hn)] at h
  cases h

/-- Bytes received one after another are `RX_BYTE` instructions, so what every instruction keeps,
receiving keeps. -/
theorem receive_of_exec {P : State → Prop} (hexec : ∀ i u v, P u → exec i u = .next v → P v)
    {bs : List Byte} {s t : State} (hw : s.cfg.wellFormed = true) (hs : P s)
    (h : receive bs s = .next t) : P t := by
  refine (receive_induction (P := fun u => u.cfg.wellFormed = true ∧ P u) ?_ ⟨hw, hs⟩ h).2
  rintro b u v ⟨hwu, hu⟩ hv
  have hbyte : exec (.rxByte b) u = .next v := (exec_rxByte b hwu).trans hv
  refine ⟨?_, hexec _ u v hu hbyte⟩
  rw [(exec_writes hbyte).cfg_schedule.1]
  exact hwu

/-- What every instruction keeps, and what does not depend on the schedule and the returned value, a
step keeps. -/
theorem step_of_exec {P : State → Prop} (hexec : ∀ i u v, P u → exec i u = .next v → P v)
    (hown : ∀ u rest rt, P u → P { u with schedule := rest, ret := rt })
    {s t : State} (hs : P s) (h : step s = .next t) : P t := by
  have hw := step_wellFormed h
  have dropped (rest : List Request) : P { s with schedule := rest } := hown s rest s.ret hs
  rcases step_cases h with ⟨-, rfl⟩ | ⟨r, rest, i, -, -, hx⟩ | ⟨r, rest, e, -, -, hx⟩
  · exact hs
  · exact hexec i _ t (dropped rest) hx
  · rcases hx with ⟨bytes, hx⟩ | ⟨now, inbound, hx⟩ | ⟨rt, rfl⟩
    · exact receive_of_exec hexec (s := { s with schedule := rest }) hw (dropped rest) hx
    · exact hexec _ _ t (dropped rest) hx
    · exact hown s rest rt hs

/-! ### The order of the reports (R241) -/

theorem reportOrder_congr {s t : State} (h : SameScheduler s t) (hs : ReportOrder s) :
    ReportOrder t := by
  obtain ⟨hhid, -, -, htx⟩ := h
  rw [ReportOrder, hhid, htx]
  exact hs

/-- A report whose identifier is the next one of the triple, sent from the state that sends it. -/
theorem reportOrder_send {s t : State} {r : Report} (hs : ReportOrder s)
    (htx : t.usbTx = s.usbTx ++ [r])
    (hid : r.id = BitVec.ofNat 8 (sentOfTriple s.hidState + 1))
    (hnext : (sentOfTriple s.hidState + 1) % 3 = sentOfTriple t.hidState) : ReportOrder t := by
  obtain ⟨hids, hlen⟩ := hs
  have hcount : t.usbTx.length = s.usbTx.length + 1 := by simp [htx]
  refine ⟨?_, by omega⟩
  rw [hcount, htx, List.map_append, List.range_succ, List.map_append, hids, List.map_singleton,
    List.map_singleton, hid, reportIdAt, hlen]

theorem hidStep_reportOrder {now : Time} {s : State} (hs : ReportOrder s) :
    ReportOrder (hidStep now s).1 := by
  rcases hidStep_cases now s with
    ⟨-, -, e⟩ | ⟨h, -, e⟩ | ⟨-, -, e⟩ | ⟨h, -, e⟩ | ⟨h, -, e⟩ | ⟨h, -, e⟩ <;> rw [e]
  case inl | inr.inr.inl => exact hs
  case inr.inl =>
    obtain ⟨hids, hlen⟩ := hs
    exact ⟨hids, by rw [hlen, h]; rfl⟩
  all_goals exact reportOrder_send hs rfl (by rw [h]; rfl) (by rw [h]; rfl)

/-- Settles O48: only a state step sends, and each state sends the next identifier of the triple. -/
theorem stepKeepsTheReportOrder : Obligations.StepKeepsTheReportOrder := by
  unfold Obligations.StepKeepsTheReportOrder
  intro s t hs h
  refine step_of_exec ?_ (fun _ _ _ hu => hu) hs h
  intro i u v hu hv
  rcases exec_scheduler hv with hsame | ⟨now, -, hsame⟩
  · exact reportOrder_congr hsame hu
  · exact reportOrder_congr hsame (hidStep_reportOrder hu)

end Sys2Proof.Machine
end

section
/-! PROOF. Received bytes (R63, R73, R109, R143 to R145, R283): a byte of a message, a frame
whatever the framer holds, and the frames the interpreter does not accept. -/

namespace Sys2Proof.Machine

/-! ### One byte of a message (R143) -/

/-- Settles O35: below the capacity one write at `rx_len`; at it, the overflow. -/
theorem payloadByteIsStored : Obligations.PayloadByteIsStored := by
  unfold Obligations.PayloadByteIsStored
  intro s b hw hs hb
  refine ⟨fun hl => ⟨Memory.write s.rxBuf s.rxLen b, ?_, ?_, ?_⟩, fun hl => ?_⟩
  · exact exec_rxByte_of_feed_none hw (feed_stores hs hb hl)
  · exact Memory.read_write_same _ _ _
  · exact fun k hk => Memory.read_write_other _ _ _ _ hk
  · exact exec_rxByte_of_feed_none hw (feed_overflows hs hb hl)

/-- Settles O36: the range below `rx_len` is the payload, and the write of 0x00 is after it. -/
theorem terminatorCompletesTheFrame : Obligations.TerminatorCompletesTheFrame := by
  unfold Obligations.TerminatorCompletesTheFrame
  intro s p hw hs hl hlen hp
  obtain ⟨hcap, -⟩ := (Config.wellFormed_iff s.cfg).mp hw
  have payload : Memory.readRange s.rxBuf s.rxLen = p := by
    rw [← hlen] at hp ⊢
    exact Memory.readRange_eq hp
  refine ⟨Memory.write s.rxBuf s.rxLen 0#8, Memory.read_write_same _ _ _,
    fun k hk => Memory.read_write_other _ _ _ _ hk, ?_⟩
  rw [exec_rxByte _ hw, rxByte_of_feed (feed_completes hs (by omega)), payload, rxComplete_some]
  rfl

/-! ### A frame, byte by byte (R145) -/

/-- Bytes the block takes are received one `RX_BYTE` after another; an ill-formed configuration
refuses the first of them. -/
theorem exec_eq_runAll_rxByte {i : Instr} (s : State) (h : receivedBytes i ≠ []) :
    exec i s = runAll ((receivedBytes i).map .rxByte) s := by
  cases hw : s.cfg.wellFormed with
  | true => rw [exec_receives s h, configured_ok _ hw, runAll_rxByte _ hw]
  | false =>
    obtain ⟨b, bs, hb⟩ := List.exists_cons_of_ne_nil h
    rw [exec_refuses i hw, hb, List.map_cons, runAll, exec_refuses _ hw]

/-- Settles O38: the bytes of the frame, its tag among them, are a payload that continues the
fragment. -/
theorem frameIsReceivedByteByByte : Obligations.FrameIsReceivedByteByByte := by
  unfold Obligations.FrameIsReceivedByteByByte
  refine ⟨fun i s hi => exec_eq_runAll_rxByte s (receivedBytes_of_frameMessage hi), ?_⟩
  intro i s tag p hw hi hbytes htag hp
  obtain ⟨hcap, -⟩ := (Config.wellFormed_iff s.cfg).mp hw
  have hpayload : terminator ∉ tag :: p := by
    rw [List.mem_cons, not_or]
    exact ⟨htag.symm, hp⟩
  have received : exec i s = receive ((tag :: p) ++ [terminator]) s := by
    rw [exec_receives s (receivedBytes_of_frameMessage hi), configured_ok _ hw, hbytes]
    rfl
  rw [received]
  refine ⟨fun hs hl => ?_, fun hs h0 hl => ?_, fun hs => receive_draining hs hpayload⟩
  · exact receive_message (by omega) hs hpayload hl
  · obtain ⟨buf, -, hrest, hrecv⟩ := receive_overlong hs hpayload h0 hl
    exact ⟨buf, hrest, hrecv⟩

/-- Settles O39: the requests are the bytes of one overlong frame. -/
theorem overlongBytesAreDrained : Obligations.OverlongBytesAreDrained := by
  unfold Obligations.OverlongBytesAreDrained
  intro s tag p hw hs hp hl
  rw [runAll_rxByte _ hw]
  exact receive_overlongFrameBytes hs hp hl

/-! ### Frames that the interpreter does not accept (R109, R198) -/

/-- The bytes of a well-formed inbound frame are its tag, its payload and one terminator (R90). -/
theorem receivedBytes_of_wellFormed {i : Instr} {m : Message} (hi : i.wellFormed = true)
    (hm : frameMessage i = some m) :
    ∃ tag, receivedBytes i = frameBytes tag m.payload ∧ classify tag = m.type ∧
      terminator ∉ m.payload := by
  cases i <;> cases hm
  case version p => exact ⟨_, rfl, rfl, (Laws.payloadWellFormed_iff p).1 hi⟩
  case keypress p => exact ⟨_, rfl, rfl, (Laws.payloadWellFormed_iff p).1 hi⟩
  case posrot p => exact ⟨_, rfl, rfl, (Laws.payloadWellFormed_iff p).1 hi⟩
  case mode p => exact ⟨_, rfl, rfl, (Laws.payloadWellFormed_iff p).1 hi⟩
  case zero p => exact ⟨_, rfl, rfl, (Laws.payloadWellFormed_iff p).1 hi⟩
  case sens p => exact ⟨_, rfl, rfl, (Laws.payloadWellFormed_iff p).1 hi⟩
  case unknown tag bytes =>
    obtain ⟨p, rfl, htag, hp⟩ := unknown_wellFormed hi
    exact ⟨tag, rfl, htag, hp⟩

/-- Settles O17: the frame stands in the buffer, and its message is malformed. -/
theorem wrongLengthIsNoOp : Obligations.WrongLengthIsNoOp := by
  unfold Obligations.WrongLengthIsNoOp
  intro i m s n hw hs hi hm hn hne hl
  obtain ⟨tag, hbytes, htag, hp⟩ := receivedBytes_of_wellFormed hi hm
  obtain ⟨buf, hbuf, hexec⟩ := exec_frame_fits hbytes htag hw hs hp hl
  refine ⟨buf, hbuf, ?_⟩
  rw [hexec, interpret_wrongLength s hn hne]
  rfl

/-- Settles O18: a well-formed frame is its tag, its payload and one terminator, and these bytes
overflow. -/
theorem overlongFrameIsDropped : Obligations.OverlongFrameIsDropped := by
  unfold Obligations.OverlongFrameIsDropped
  intro i m s hw hs hi hm hl
  obtain ⟨tag, hbytes, htag, hp⟩ := receivedBytes_of_wellFormed hi hm
  exact exec_frame_overlong hbytes htag hw hs hp hl

/-! ### A step (R9, R145) -/

theorem step_of_decoded {s : State} {r : Request} {rest : List Request} {i : Instr}
    (hs : s.schedule = r :: rest) (h : decode r = .ok i) :
    step s = exec i { s with schedule := rest } := by
  rw [step, hs]
  simp only [h]

theorem step_of_undecoded {s : State} {r : Request} {rest : List Request} {e : DecodeError}
    (hs : s.schedule = r :: rest) (h : decode r = .error e) :
    step s = execUndecoded r { s with schedule := rest } := by
  rw [step, hs]
  simp only [h]

theorem step_of_empty {s : State} (hw : s.cfg.wellFormed = true) (hs : s.schedule = []) :
    step s = .next s := by
  rw [step, hs]
  exact configured_ok _ hw

/-- Settles O5: each clause is a branch of the step. -/
theorem stepRunsTheDecodedInstruction : Obligations.StepRunsTheDecodedInstruction := by
  unfold Obligations.StepRunsTheDecodedInstruction
  refine ⟨fun s r rest i hs h => step_of_decoded hs h, ?_, fun s hw hs => step_of_empty hw hs⟩
  intro s r rest e hw hs h
  rw [step_of_undecoded hs h]
  refine ⟨?_, ?_, ?_, ?_⟩
  · rintro bytes rfl
    have received := runAll_rxByte (s := { s with schedule := rest }) bytes hw
    exact (configured_ok _ hw).trans received.symm
  · rintro now bytes rfl
    rfl
  · rintro now bytes rfl
    exact configured_ok _ hw
  · rintro now id rfl
    exact configured_ok _ hw

end Sys2Proof.Machine
end

section
/-! PROOF. Out of hard reset (R311, R42): the first operations, and the invariants. -/

namespace Sys2Proof.Machine

/-- Settles O42: the Reset step, the idle tick and the tag byte, from the registers of reset. -/
theorem firstOperationsOutOfReset : Obligations.FirstOperationsOutOfReset := by
  unfold Obligations.FirstOperationsOutOfReset
  intro c now b hw
  refine ⟨rfl, ⟨_, resetStepSendsReset (State.resetWith c) now _ hw rfl (.inl rfl), rfl, rfl, rfl⟩,
    ?_, idleByteIsATag (State.resetWith c) b hw rfl⟩
  exact (idleTickLatchesADirtySnapshot (State.resetWith c) now hw rfl).2
    (resetWith_submit_eq_live c).symm

theorem cutMask_zero (count : Nat) : cutMask count 0#16 = 0#16 := BitVec.zero_and

theorem inv_resetWith {c : Config} (hw : c.wellFormed = true) : (State.resetWith c).Inv := by
  have axis_zero : AxisOk 0#16 := by decide
  have buffer : BufferOk (State.resetWith c) := ⟨rfl, nofun, nofun⟩
  have length : LengthOk (State.resetWith c) := ⟨Nat.zero_le _, nofun⟩
  exact ⟨hw, buffer, nofun, length,
    ⟨axis_zero, axis_zero, axis_zero, axis_zero, axis_zero, axis_zero⟩,
    ⟨cutMask_zero _, cutMask_zero _⟩, .inl rfl⟩

/-- Settles O43: the buffer is empty, the streams are empty, and every register is zero. -/
theorem invariantsHoldAtReset : Obligations.InvariantsHoldAtReset := by
  unfold Obligations.InvariantsHoldAtReset
  intro c hw
  exact ⟨inv_resetWith hw, ⟨rfl, rfl⟩,
    ⟨.inl rfl, .inl rfl, .inl rfl, .inl rfl, .inl rfl, .inl rfl⟩⟩

end Sys2Proof.Machine
end

section
/-! PROOF. The signed word (R66, R131, R132): its magnitude as a sum, its value and its range, and
the test bench's encoder as an inverse. -/

namespace Sys2Proof.Machine

/-- The three nibbles do not overlap, so the magnitude is their sum (R66). -/
theorem magnitude_eq (cfg : Config) (c1 c2 c3 : Byte) :
    magnitude cfg c1 c2 c3 = (decodeNibble cfg c1).toNat * 256 + (decodeNibble cfg c2).toNat * 16 +
      (decodeNibble cfg c3).toNat := by
  have low := Nat.two_pow_add_eq_or_of_lt (decodeNibble cfg c3).isLt (decodeNibble cfg c2).toNat
  have high := Nat.two_pow_add_eq_or_of_lt (i := 8)
    (b := 2 ^ 4 * (decodeNibble cfg c2).toNat + (decodeNibble cfg c3).toNat) (by omega)
    (decodeNibble cfg c1).toNat
  rw [magnitude, Nat.shiftLeft_eq, Nat.shiftLeft_eq, Nat.mul_comm _ (2 ^ 8), Nat.mul_comm _ (2 ^ 4),
    Nat.or_assoc, ← low, ← high]
  omega

theorem magnitude_lt (cfg : Config) (c1 c2 c3 : Byte) : magnitude cfg c1 c2 c3 < 4096 := by
  rw [magnitude_eq]
  omega

/-- Bit 3 of the first nibble chooses between the magnitude and the magnitude minus 4096 (R131). -/
theorem decodeSignedWord_toInt (cfg : Config) (c0 c1 c2 c3 : Byte) :
    (decodeSignedWord cfg c0 c1 c2 c3).toInt =
      if (decodeNibble cfg c0).getLsbD 3 then (magnitude cfg c1 c2 c3 : Int)
      else (magnitude cfg c1 c2 c3 : Int) - 4096 := by
  have hm := magnitude_lt cfg c1 c2 c3
  unfold decodeSignedWord
  split
  · exact BitVec.toInt_ofInt_eq_self (by decide) (by omega) (by omega)
  · exact BitVec.toInt_ofInt_eq_self (by decide) (by omega) (by omega)

theorem decodeSignedWord_axisOk (cfg : Config) (c0 c1 c2 c3 : Byte) :
    AxisOk (decodeSignedWord cfg c0 c1 c2 c3) := by
  have hm := magnitude_lt cfg c1 c2 c3
  rw [AxisOk, decodeSignedWord_toInt]
  split <;> omega

/-- A 13-bit number is its low 12 bits, less 4096 if bit 12 is set. -/
theorem toInt_ofNat_thirteen {m : Nat} (hm : m < 4096) :
    (BitVec.ofNat 13 m).toInt = m ∧ (BitVec.ofNat 13 (4096 + m)).toInt = (m : Int) - 4096 := by
  constructor <;> rw [BitVec.toInt_eq_toNat_cond, BitVec.toNat_ofNat] <;> split <;> omega

/-! ### The test bench's encoder (R112) -/

theorem decodeNibble_encNibble {cfg : Config} (hw : cfg.wellFormed = true) {n : Nat} (hn : n < 16) :
    (decodeNibble cfg (encNibble cfg n)).toNat = n := by
  obtain ⟨-, -, halphabet, -, -⟩ := (Config.wellFormed_iff cfg).mp hw
  obtain ⟨hlen, -⟩ := (alphabetWellFormed_iff _).mp halphabet
  refine decodeNibble_toNat_of_getElem? halphabet ?_
  rw [encNibble, List.getD_eq_getElem _ _ (by omega), List.getElem?_eq_getElem]

/-- The magnitude of three encoded nibbles is the number they were taken from. -/
theorem magnitude_encNibble {cfg : Config} (hw : cfg.wellFormed = true) {m : Nat} (hm : m < 4096) :
    magnitude cfg (encNibble cfg (m / 256 % 16)) (encNibble cfg (m / 16 % 16))
      (encNibble cfg (m % 16)) = m := by
  rw [magnitude_eq, decodeNibble_encNibble hw (by omega), decodeNibble_encNibble hw (by omega),
    decodeNibble_encNibble hw (by omega)]
  omega

/-- The sign character carries its value in bit 3: 8 for a number that is not negative, 0 for the
others (R112). -/
theorem decodeNibble_encSign {cfg : Config} (hw : cfg.wellFormed = true) (v : Int) :
    (decodeNibble cfg (encNibble cfg (if 0 ≤ v then 8 else 0))).getLsbD 3 = decide (0 ≤ v) := by
  rw [BitVec.getLsbD, decodeNibble_encNibble hw (by split <;> omega)]
  split
  · next h => rw [decide_eq_true h]; rfl
  · next h => rw [decide_eq_false h]; rfl

theorem wordAt_encWord {cfg : Config} (hw : cfg.wellFormed = true) {v : Int} (hlo : -4096 ≤ v)
    (hhi : v ≤ 4095) : (wordAt cfg (encWord cfg v) 0).toInt = v := by
  obtain ⟨m, hm⟩ : ∃ m, m = (if 0 ≤ v then v else v + 4096).toNat := ⟨_, rfl⟩
  have hmv : (m : Int) = if 0 ≤ v then v else v + 4096 := by split at hm <;> split <;> omega
  have word : wordAt cfg (encWord cfg v) 0 = decodeSignedWord cfg
      (encNibble cfg (if 0 ≤ v then 8 else 0)) (encNibble cfg (m / 256 % 16))
      (encNibble cfg (m / 16 % 16)) (encNibble cfg (m % 16)) := by
    rw [hm]
    rfl
  rw [word, decodeSignedWord_toInt, decodeNibble_encSign hw,
    magnitude_encNibble hw (by split at hmv <;> omega), hmv]
  simp only [decide_eq_true_eq]
  split <;> omega

/-- Settles O9: the value by cases of the sign bit; the magnitude is below 4096. -/
theorem signedWordLaw : Obligations.SignedWordLaw := by
  unfold Obligations.SignedWordLaw
  intro cfg
  refine ⟨fun c0 c1 c2 c3 => ?_, fun hw v hlo hhi => wordAt_encWord hw hlo hhi⟩
  have hm := magnitude_lt cfg c1 c2 c3
  obtain ⟨hlow, hhigh⟩ := toInt_ofNat_thirteen hm
  obtain ⟨hmin, hmax⟩ := decodeSignedWord_axisOk cfg c0 c1 c2 c3
  have hv := decodeSignedWord_toInt cfg c0 c1 c2 c3
  simp only [← magnitude_eq]
  refine ⟨?_, hmin, hmax, ?_⟩
  · rw [hv]
    split <;> omega
  · rw [hv]
    split
    · simpa using hlow
    · simpa using hhigh

end Sys2Proof.Machine
end

section
/-! PROOF. The invariant of the block (R42): every received byte, every instruction and every step
keeps it, and under it none of them stops (R9, R280). -/

namespace Sys2Proof.Machine

/-! ### The operations keep it -/

theorem cutMask_cutMask (count : Nat) (m : Mask) :
    cutMask count (cutMask count m) = cutMask count m := by
  rw [cutMask, cutMask, BitVec.and_assoc, BitVec.and_self]

theorem posrotAxes_rawOk (cfg : Config) (p : List Byte) (s : State) :
    RawOk { s with raw := posrotAxes cfg p } :=
  ⟨decodeSignedWord_axisOk _ _ _ _ _, decodeSignedWord_axisOk _ _ _ _ _,
    decodeSignedWord_axisOk _ _ _ _ _, decodeSignedWord_axisOk _ _ _ _ _,
    decodeSignedWord_axisOk _ _ _ _ _, decodeSignedWord_axisOk _ _ _ _ _⟩

/-- The interpreter writes masks that are cut and words that are in range, and nothing else that the
invariant speaks of. -/
theorem interpret_inv (m : Message) {s : State} (hs : s.Inv) : (interpret m s).1.Inv := by
  have ⟨hw, hbuf, hpay, hlen, hraw, ⟨hbut, hsub⟩, hgate⟩ := hs
  rcases interpret_cases m s with e | ⟨-, e⟩ | ⟨-, e⟩ | ⟨-, -, e⟩ | ⟨-, e⟩ | ⟨-, -, e⟩ | ⟨-, e⟩ |
    ⟨-, -, e⟩ | ⟨-, e⟩ | ⟨-, e⟩ <;> rw [e]
  on_goal 9 => exact ⟨hw, hbuf, hpay, hlen, hraw, ⟨cutMask_cutMask _ _, hsub⟩, hgate⟩
  on_goal 9 => exact ⟨hw, hbuf, hpay, hlen, posrotAxes_rawOk _ _ _, ⟨hbut, hsub⟩, hgate⟩
  all_goals exact hs

/-- A write inside the buffer that puts nothing but 0x00 into the reserved slot (R60). -/
theorem bufferOk_write {s : State} {a : Nat} {v : Byte} (hs : BufferOk s)
    (ha : a < s.cfg.rxCapacity) (hv : a = s.cfg.rxCapacity - 1 → v = 0#8) :
    BufferOk { s with rxBuf := Memory.write s.rxBuf a v } := by
  obtain ⟨hwf, hlt, hslot⟩ := hs
  refine ⟨Memory.wf_write _ _ _ hwf, fun c hc => ?_, fun c hc => ?_⟩
  · rcases Memory.mem_write hc with rfl | hc
    · exact ha
    · exact hlt c hc
  · rcases Memory.mem_write hc with rfl | hc
    · exact hv
    · exact hslot c hc

theorem feed_inv {b : Byte} {s : State} {r : State × Option Message} (hs : s.Inv)
    (h : feed b s = .next r) : r.1.Inv := by
  have ⟨hw, hbuf, hpay, ⟨hlen, hfull⟩, hrest⟩ := hs
  rcases feed_next h with ⟨-, rfl⟩ | ⟨-, -, hl, rfl⟩ | ⟨hr, hb, hl, rfl⟩ | ⟨-, -, hl, rfl⟩ |
    ⟨-, -, rfl⟩ | ⟨-, -, rfl⟩
  · exact ⟨hw, hbuf, nofun, ⟨Nat.zero_le _, nofun⟩, hrest⟩
  · exact ⟨hw, bufferOk_write hbuf hl fun _ => rfl, nofun, ⟨hlen, nofun⟩, hrest⟩
  · refine ⟨hw, bufferOk_write hbuf (by omega) fun he => absurd he hl.ne, fun _ k hk => ?_,
      ⟨hl, fun hd => ?_⟩, hrest⟩
    · rw [Memory.read_write]
      split
      · exact hb
      · exact hpay hr k (by simp only at hk; omega)
    · rw [show s.rxState = .drainingOverflow from hd] at hr
      cases hr
  · exact ⟨hw, hbuf, nofun, ⟨hlen, fun _ => Nat.le_antisymm hlen hl⟩, hrest⟩
  · exact ⟨hw, hbuf, nofun, ⟨hlen, nofun⟩, hrest⟩
  · exact hs

theorem rxByte_inv {b : Byte} {s t : State} (hs : s.Inv) (h : rxByte b s = .next t) : t.Inv := by
  obtain ⟨⟨u, m⟩, hf, rfl⟩ := rxByte_next h
  have hu : u.Inv := feed_inv hs hf
  cases m with
  | none => exact hu
  | some m => exact interpret_inv m hu

/-- A tick arms the gate with 500 ms or leaves it (R162, R165). -/
theorem initStep_gateLen (now : Time) (s : State) :
    (initStep now s).1.gateLen = s.gateLen ∨ (initStep now s).1.gateLen = 500 := by
  rcases initStep_cases now s with
    ⟨-, e⟩ | ⟨-, -, e⟩ | ⟨-, e⟩ | ⟨-, -, e⟩ | ⟨-, e⟩ | ⟨-, e⟩ <;> rw [e] <;> simp

theorem initTick_gateLen (now : Time) (s : State) :
    (initTick now s).1.gateLen = s.gateLen ∨ (initTick now s).1.gateLen = 500 := by
  rw [initTick]
  rcases stuckCheck_cases now s with ⟨-, h⟩ | ⟨-, h⟩ <;> rw [h]
  · exact initStep_gateLen now (takeStall s)
  · exact initStep_gateLen now s

theorem initTick_inv (now : Time) {s : State} (hs : s.Inv) : (initTick now s).1.Inv := by
  obtain ⟨hw, hbuf, hpay, hlen, hraw, hmask, hgate⟩ := hs
  have gate : GateOk (initTick now s).1 := by
    rcases initTick_gateLen now s with h | h <;> rw [GateOk, h]
    · exact hgate
    · exact .inr rfl
  obtain ⟨ini, lrt, gs, gl, tx, dg, e⟩ := initTick_frame now s
  rw [e] at gate ⊢
  exact ⟨hw, hbuf, hpay, hlen, hraw, hmask, gate⟩

/-- The scheduler's snapshot takes its mask from the button register. -/
theorem hidStep_inv (now : Time) {s : State} (hs : s.Inv) : (hidStep now s).1.Inv := by
  have ⟨hw, hbuf, hpay, hlen, hraw, ⟨hbut, hsub⟩, hgate⟩ := hs
  rcases hidStep_cases now s with
    ⟨-, -, e⟩ | ⟨-, -, e⟩ | ⟨-, -, e⟩ | ⟨-, -, e⟩ | ⟨-, -, e⟩ | ⟨-, -, e⟩ <;> rw [e]
  on_goal 2 => exact ⟨hw, hbuf, hpay, hlen, hraw, ⟨hbut, hbut⟩, hgate⟩
  all_goals exact hs

theorem softReset_inv {s : State} (hs : s.Inv) : (softReset s).Inv := by
  obtain ⟨hw, hbuf, hpay, hlen, -, ⟨-, hsub⟩, -⟩ := hs
  have axis_zero : AxisOk 0#16 := by decide
  exact ⟨hw, hbuf, hpay, hlen,
    ⟨axis_zero, axis_zero, axis_zero, axis_zero, axis_zero, axis_zero⟩,
    ⟨cutMask_zero _, hsub⟩, .inl rfl⟩

theorem exec_inv {i : Instr} {s t : State} (hs : s.Inv) (h : exec i s = .next t) : t.Inv := by
  cases exec_ran h with
  | same i r _ => exact hs
  | bytes i t _ hrecv => exact receive_induction (fun _ _ _ hu hv => rxByte_inv hu hv) hs hrecv
  | tick i now _ _ _ => exact initTick_inv now hs
  | beep i _ => exact hs
  | send i now _ _ => exact hidStep_inv now hs
  | hid i now inbound _ =>
    have hu := hidStep_inv now hs
    obtain ⟨l, k, e⟩ := ledDrain_frame inbound (hidStep now s).1
    rw [e]
    exact hu
  | reset =>
    have hu := softReset_inv hs
    exact hu

/-- Settles O44: every instruction keeps the invariant, which does not speak of the schedule. -/
theorem stepKeepsTheInvariant : Obligations.StepKeepsTheInvariant := by
  unfold Obligations.StepKeepsTheInvariant
  intro s t hs h
  exact step_of_exec (P := State.Inv) (fun _ _ _ hu hv => exec_inv hu hv) (fun _ _ _ hu => hu) hs h

/-! ### Nothing stops the block (R9, R280) -/

/-- A received byte stops only on a length outside the buffer, which the invariant excludes. -/
theorem rxByte_goesOn (b : Byte) {s : State} (hs : s.Inv) :
    ∃ t, rxByte b s = .next t ∧ t.Inv := by
  have ⟨hw, _, _, ⟨hlen, _⟩, _⟩ := hs
  obtain ⟨hcap, -⟩ := (Config.wellFormed_iff s.cfg).mp hw
  obtain ⟨r, hr⟩ : ∃ r, feed b s = .next r := by
    by_contra hn
    obtain ⟨-, -, hout⟩ := feed_stops fun r hr => hn ⟨r, hr⟩
    omega
  have ht := rxByte_of_feed hr
  exact ⟨_, ht, rxByte_inv hs ht⟩

theorem receive_goesOn_of_inv (bs : List Byte) {s : State} (hs : s.Inv) :
    ∃ t, receive bs s = .next t :=
  receive_goesOn (fun b _ hu => rxByte_goesOn b hu) bs hs

/-- Of the instructions only those that receive bytes can stop at all. -/
theorem exec_goesOn (i : Instr) {s : State} (hs : s.Inv) : ∃ t, exec i s = .next t := by
  have ⟨hw, _⟩ := hs
  by_cases hb : receivedBytes i = []
  · cases i with
    | version | keypress | posrot | mode | zero | sens | rxByte => cases hb
    | unknown tag bytes => exact absurd hb (by simp [receivedBytes])
    | _ => exact ⟨_, configured_ok _ hw⟩
  · rw [exec_receives s hb, configured_ok _ hw]
    exact receive_goesOn_of_inv _ hs

/-- Settles O45: a request is an instruction, or its bytes are received or offered to a tick. -/
theorem nothingStopsTheBlock : Obligations.NothingStopsTheBlock := by
  unfold Obligations.NothingStopsTheBlock
  intro s hs
  refine ⟨fun i => exec_goesOn i hs, ?_⟩
  have ⟨hw, _⟩ := hs
  cases hsch : s.schedule with
  | nil => exact ⟨s, step_of_empty hw hsch⟩
  | cons r rest =>
    have dropped : State.Inv { s with schedule := rest } := hs
    cases hd : decode r with
    | ok i =>
      rw [step_of_decoded hsch hd]
      exact exec_goesOn i dropped
    | error e =>
      rw [step_of_undecoded hsch hd]
      rcases execUndecoded_cases { s with schedule := rest } hd hw with
        ⟨bytes, -, h⟩ | ⟨now, bytes, -, h⟩ | ⟨now, bytes, -, h⟩ | ⟨now, id, -, h⟩ <;> rw [h]
      · exact receive_goesOn_of_inv bytes dropped
      all_goals exact ⟨_, rfl⟩

end Sys2Proof.Machine
end

section
/-! PROOF. The edges of `init_state` (R25, R38, R173): what a tick, a received byte and any number
of them do to it. -/

namespace Sys2Proof.Machine

/-! ### Ticks -/

theorem elapsed_le_of_not_stuck {now : Time} {s : State} (h : stuck now s = false)
    (hr : s.initState ≠ .reset) (hd : s.initState ≠ .done) :
    (now - s.lastResetTime).toNat ≤ 5000 := by
  by_contra hlate
  rw [(stuck_iff now s).2 ⟨hr, hd, Nat.lt_of_not_le hlate⟩] at h
  cases h

/-- The edges a tick takes, with what they wait for (R161, R173). -/
theorem initTick_edge (now : Time) (s : State) :
    (initTick now s).1.initState = s.initState ∨
    (stuck now s = true ∧ (initTick now s).1.initState = .requestVersion) ∨
    (stuck now s = false ∧
      ((s.initState = .reset ∧ (initTick now s).1.initState = .requestVersion) ∨
      (s.initState = .requestVersion ∧ (initTick now s).1.initState = .waitVersion ∧
        gateExpired now s = true) ∨
      (s.initState = .requestButtonReporting ∧ (initTick now s).1.initState = .requestSetMode) ∨
      (s.initState = .requestSetMode ∧ (initTick now s).1.initState = .waitSetMode ∧
        gateExpired now s = true) ∨
      (s.initState = .requestZero ∧ (initTick now s).1.initState = .waitZero))) := by
  cases hst : stuck now s with
  | true =>
    rw [initTick_of_stuck hst, initStep_reset now (takeStall_initState s)]
    exact .inr (.inl ⟨rfl, rfl⟩)
  | false =>
    rw [initTick_of_not_stuck (Bool.eq_false_iff.1 hst)]
    rcases initStep_cases now s with
      ⟨hs, e⟩ | ⟨hs, hg, e⟩ | ⟨hs, e⟩ | ⟨hs, hg, e⟩ | ⟨hs, e⟩ | ⟨-, e⟩ <;> rw [e]
    case inr.inr.inr.inr.inr => exact .inl rfl
    all_goals
      refine .inr (.inr ⟨rfl, ?_⟩)
      simp [*]

/-- The instructions that run the step of a state: the tick, and the row of that step's command. -/
theorem sequencerAt_selected {i : Instr} {now : Time} {cur : InitState} (hi : sequencerAt i now)
    (ho : ∀ w, ownStep i = some w → cur = w) :
    i = .initTick now ∨ (cur = .reset ∧ i = .cmdReset now) ∨
    (cur = .requestVersion ∧ i = .cmdGetVersion now) ∨
    (cur = .requestButtonReporting ∧ i = .cmdButtonReporting now) ∨
    (cur = .requestSetMode ∧ i = .cmdSetMode now) ∨ (cur = .requestZero ∧ i = .cmdZero now) := by
  rcases hi with rfl | rfl | rfl | rfl | rfl | rfl
  case inl => exact .inl rfl
  all_goals simp [ho _ rfl]

/-! ### Received bytes -/

/-- The edges out of the Wait states and the messages that take them (R191, R192, R194). -/
def MessageEdge (cfg : Config) (m : Message) (a b : InitState) : Prop :=
  (a = .waitVersion ∧ b = .requestButtonReporting ∧ m.type = .version ∧
    containsBytes cfg.versionMagic m.payload = true) ∨
  (a = .waitSetMode ∧ b = .requestZero ∧ m.type = .modeChange ∧
    ∃ c, m.payload = [c] ∧ decodeNibble cfg c = expectedMode) ∨
  (a = .waitZero ∧ b = .done ∧ m.type = .zero)

/-- No message takes an edge out of a state that a message leads to. -/
theorem MessageEdge.not_again {cfg cfg' : Config} {m m' : Message} {a b c : InitState}
    (h : MessageEdge cfg m a b) : ¬ MessageEdge cfg' m' b c := by
  rcases h with ⟨-, rfl, -⟩ | ⟨-, rfl, -⟩ | ⟨-, rfl, -⟩ <;> simp [MessageEdge]

/-- A received byte moves `init_state` only as the terminator of a message that takes an edge. -/
theorem rxByte_initState {b : Byte} {s t : State} (h : rxByte b s = .next t) :
    t.initState = s.initState ∨
    (b = terminator ∧ s.rxState = .readingMessage ∧
      MessageEdge s.cfg ⟨s.rxType, Memory.readRange s.rxBuf s.rxLen⟩ s.initState t.initState) := by
  obtain ⟨r, hf, rfl⟩ := rxByte_next h
  rcases feed_next hf with ⟨-, rfl⟩ | ⟨hs, hb, -, rfl⟩ | ⟨-, -, -, rfl⟩ | ⟨-, -, -, rfl⟩ |
    ⟨-, -, rfl⟩ | ⟨-, -, rfl⟩
  on_goal 2 =>
    rw [rxComplete_some, answer_initState]
    rcases interpret_initState ⟨s.rxType, Memory.readRange s.rxBuf s.rxLen⟩
      { s with rxBuf := Memory.write s.rxBuf s.rxLen 0#8, rxState := .idle } with
      h | ⟨h1, h2, h3⟩ | ⟨h1, h2, h3⟩ | ⟨h1, h2, h3⟩
    · exact .inl h
    · exact .inr ⟨hb, hs, .inl ⟨h1, h2, h3⟩⟩
    · exact .inr ⟨hb, hs, .inr (.inl ⟨h1, h2, h3⟩)⟩
    · exact .inr ⟨hb, hs, .inr (.inr ⟨h1, h2, h3⟩)⟩
  all_goals exact .inl rfl

/-- Received bytes move `init_state` at most once, at a terminator that completes a message. -/
theorem receive_initState {bs : List Byte} {s t : State} (h : receive bs s = .next t) :
    t.initState = s.initState ∨
    ∃ pre post u, bs = pre ++ terminator :: post ∧ receive pre s = .next u ∧
      u.rxState = .readingMessage ∧
      MessageEdge s.cfg ⟨u.rxType, Memory.readRange u.rxBuf u.rxLen⟩ s.initState t.initState := by
  induction bs generalizing s with
  | nil => exact .inl (congrArg State.initState (Host.Outcome.next.inj h).symm)
  | cons b bs ih =>
    simp only [receive] at h
    split at h
    case h_2 | h_3 => cases h
    next v hv =>
    have hcfg : v.cfg = s.cfg := by rw [rxByte_frame hv]
    rcases rxByte_initState hv with hsame | ⟨hb, hs, hedge⟩
    · rcases ih h with hi | ⟨pre, post, u, rfl, hpre, hu, hedge⟩
      · exact .inl (hi.trans hsame)
      · rw [hcfg, hsame] at hedge
        refine .inr ⟨b :: pre, post, u, rfl, ?_, hu, hedge⟩
        simp only [receive, hv, hpre]
    · rcases ih h with hi | ⟨_, _, _, _, _, _, hedge'⟩
      · rw [← hi] at hedge
        exact .inr ⟨[], bs, s, by rw [hb]; rfl, rfl, hs, hedge⟩
      · exact absurd hedge' hedge.not_again

/-- An instruction that receives bytes moves `init_state` only by a message it hands over. -/
theorem handsOver_of_receive {i : Instr} {s t : State}
    (h : receive (receivedBytes i) s = .next t) :
    t.initState = s.initState ∨
    ∃ m, handsOver i m s ∧ MessageEdge s.cfg m s.initState t.initState := by
  rcases receive_initState h with hi | ⟨pre, post, u, hbs, hpre, hu, hedge⟩
  · exact .inl hi
  · exact .inr ⟨_, ⟨pre, post, u, hbs, hpre, hu, rfl⟩, hedge⟩

/-! ### The statements -/

/-- Settles O46: a tick takes the edges of its steps and of the stall, a message those of the Wait
states, and the external request its own. -/
theorem initStateFollowsItsEdges : Obligations.InitStateFollowsItsEdges := by
  unfold Obligations.InitStateFollowsItsEdges
  intro i s t h inTime gateOpen
  cases exec_ran h with
  | same i r _ => exact .inl rfl
  | beep i _ => exact .inl rfl
  | send i now _ _ =>
    obtain ⟨_, _, _, _, _, e⟩ := hidStep_frame now s
    exact .inl (by rw [e]; rfl)
  | hid i now inbound _ =>
    obtain ⟨_, _, _, _, _, e⟩ := hidStep_frame now s
    obtain ⟨_, _, e'⟩ := ledDrain_frame inbound (hidStep now s).1
    exact .inl (by rw [e', e]; rfl)
  | reset =>
    iterate 10 apply Or.inr
    exact ⟨rfl, rfl⟩
  | bytes i t _ hrecv =>
    rcases handsOver_of_receive hrecv with hi | ⟨m, hm, ⟨h1, h2, h3, h4⟩ | ⟨h1, h2, h3, c, h4⟩ |
      ⟨h1, h2, h3⟩⟩
    · exact .inl hi
    · exact .inr (.inr (.inr (.inl ⟨h1, h2, m, hm, h3, h4⟩)))
    · exact .inr (.inr (.inr (.inr (.inr (.inr (.inl ⟨h1, h2, m, c, hm, h3, h4⟩))))))
    · exact .inr (.inr (.inr (.inr (.inr (.inr (.inr (.inr (.inl ⟨h1, h2, m, hm, h3⟩))))))))
  | tick i now hi ho hstall =>
    rw [answer_initState]
    rcases initTick_edge now s with he | ⟨hst, he⟩ | ⟨hst, he⟩
    · exact .inl he
    · obtain ⟨hr, hd, hlate⟩ := (stuck_iff now s).1 hst
      have late : ¬ inTime now := Nat.not_le.2 hlate
      iterate 9 apply Or.inr
      exact .inl ⟨hr, hd, he, now, hstall hst, late⟩
    · rw [stuckCheck, if_neg (Bool.eq_false_iff.1 hst)] at ho
      have row := sequencerAt_selected hi ho
      have in_time := elapsed_le_of_not_stuck hst
      rcases he with ⟨hs, he⟩ | ⟨hs, he, hg⟩ | ⟨hs, he⟩ | ⟨hs, he, hg⟩ | ⟨hs, he⟩ <;>
        simp only [hs, reduceCtorEq, false_and, false_or, or_false, true_and] at row in_time
      · exact .inr (.inl ⟨hs, he, now, row⟩)
      · exact .inr (.inr (.inl
          ⟨hs, he, now, row, in_time nofun nofun, (gateExpired_iff now s).1 hg⟩))
      · exact .inr (.inr (.inr (.inr (.inl ⟨hs, he, now, row, in_time nofun nofun⟩))))
      · exact .inr (.inr (.inr (.inr (.inr (.inl
          ⟨hs, he, now, row, in_time nofun nofun, (gateExpired_iff now s).1 hg⟩)))))
      · iterate 7 apply Or.inr
        exact .inl ⟨hs, he, now, row, in_time nofun nofun⟩

theorem ready_iff (s : State) : ready s = true ↔ s.initState = .done := decide_eq_true_iff

/-- Settles O47: of the edges one leads to `Done`, and one leads out of it. -/
theorem readyChangesOnlyByZeroAndReset : Obligations.ReadyChangesOnlyByZeroAndReset := by
  unfold Obligations.ReadyChangesOnlyByZeroAndReset
  intro i s t h
  simp only [← Bool.not_eq_true, ready_iff]
  rcases initStateFollowsItsEdges i s t h with e | ⟨hs, ht, -⟩ | ⟨hs, ht, -⟩ | ⟨hs, ht, -⟩ |
    ⟨hs, ht, -⟩ | ⟨hs, ht, -⟩ | ⟨hs, ht, -⟩ | ⟨hs, ht, -⟩ | ⟨hs, ht, hm⟩ | ⟨-, hs, ht, -⟩ | ⟨hs, ht⟩
  case inl => exact ⟨fun hn hd => absurd (e ▸ hd) hn, fun hd hn => absurd (e ▸ hd) hn⟩
  case inr.inr.inr.inr.inr.inr.inr.inr.inl =>
    exact ⟨fun _ _ => ⟨hs, hm⟩, fun _ hn => absurd ht hn⟩
  all_goals simp [hs, ht]

end Sys2Proof.Machine
end

section
/-! PROOF. Rounding to binary32 (R214, R217): the finite values, the bits of the value nearest to a
positive rational, and their order. -/

namespace Sys2Proof.Machine

/-! ### Integers nearest to a rational -/

/-- No integer is nearer to `x` than `r`, and where another is as near `r` is even. -/
def NearestEven (r : Nat) (x : ℚ) : Prop :=
  ∀ j : Int, |(r : ℚ) - x| ≤ |(j : ℚ) - x| ∧
    (|(r : ℚ) - x| = |(j : ℚ) - x| → (j : ℚ) ≠ r → r % 2 = 0)

theorem roundRatio_nearestEven (num : Nat) {den : Nat} (hd : 0 < den) :
    NearestEven (roundRatio num den) (num / den) :=
  roundRatio_nearest num den hd

/-- A value no farther from `x` than `b`, which is not below `x`, is not above `b`. -/
theorem le_of_nearer {a b x : ℚ} (h : |a - x| ≤ |b - x|) (hb : x ≤ b) : a ≤ b := by
  rw [abs_of_nonneg (sub_nonneg.2 hb)] at h
  linarith [le_abs_self (a - x)]

/-- A value no farther from `x` than `b`, which is not above `x`, is not below `b`. -/
theorem ge_of_nearer {a b x : ℚ} (h : |a - x| ≤ |b - x|) (hb : b ≤ x) : b ≤ a := by
  rw [abs_of_nonpos (sub_nonpos.2 hb)] at h
  linarith [neg_abs_le (a - x)]

theorem NearestEven.le {r n : Nat} {x : ℚ} (h : NearestEven r x) (hx : x ≤ n) : r ≤ n := by
  have := le_of_nearer (h n).1 (by exact_mod_cast hx)
  exact_mod_cast this

theorem NearestEven.ge {r n : Nat} {x : ℚ} (h : NearestEven r x) (hx : (n : ℚ) ≤ x) : n ≤ r := by
  have := ge_of_nearer (h n).1 (by exact_mod_cast hx)
  exact_mod_cast this

/-! ### The finite values of binary32 -/

/-- The rationals with a significand of 24 bits at a binary32 exponent: every finite binary32 value
is one. -/
def Representable (x : ℚ) : Prop :=
  ∃ (j : Int) (e : Nat), |(j : ℚ)| < 2 ^ 24 ∧ x = j * 2 ^ ((e : Int) - 149)

theorem Representable.neg {x : ℚ} (h : Representable x) : Representable (-x) := by
  obtain ⟨j, e, hj, rfl⟩ := h
  exact ⟨-j, e, by rwa [Int.cast_neg, abs_neg], by rw [Int.cast_neg, neg_mul]⟩

theorem normSignificand_lt (w : Norm) : normSignificand w < 2 ^ 24 := by
  unfold normSignificand
  split <;> omega

theorem normValue_representable (w : Norm) : Representable (normValue w) := by
  have hlt : (normSignificand w : ℚ) < 2 ^ 24 := by exact_mod_cast normSignificand_lt w
  have hexp : ((max 1 (normExponent w) : Nat) : Int) - 150 =
      ((max 1 (normExponent w) - 1 : Nat) : Int) - 149 := by omega
  rw [normValue, hexp]
  generalize max 1 (normExponent w) - 1 = e
  cases normNegative w with
  | true => exact ⟨-normSignificand w, e, by simpa using hlt, by simp⟩
  | false => exact ⟨normSignificand w, e, by simpa using hlt, by simp⟩

/-! ### The value nearest to a positive rational -/

/-- `q` scaled by 2^(149 - k) lies in the range of a significand, and `r` is the integer nearest to
it: the exponent and the significand of the binary32 value nearest to `q`. -/
structure Rounded (q : ℚ) (k r : Nat) : Prop where
  exponent_le : k ≤ 252
  scaled_ge : 2 ^ 23 ≤ q * 2 ^ (149 - (k : Int))
  scaled_lt : q * 2 ^ (149 - (k : Int)) < 2 ^ 24
  nearest : NearestEven r (q * 2 ^ (149 - (k : Int)))

namespace Rounded

variable {q : ℚ} {k r : Nat}

theorem significand_ge (h : Rounded q k r) : 2 ^ 23 ≤ r :=
  h.nearest.ge (by exact_mod_cast h.scaled_ge)

theorem significand_le (h : Rounded q k r) : r ≤ 2 ^ 24 :=
  h.nearest.le (by exact_mod_cast h.scaled_lt.le)

/-- No finite value is nearer to `q`, and where another is as near the significand is even: at
exponent `k` or above the finite values are integers in the scale of `q`, and below it they are too
small. -/
theorem nearest_representable (h : Rounded q k r) {x : ℚ} (hx : Representable x) :
    |r * (2 : ℚ) ^ ((k : Int) - 149) - q| ≤ |x - q| ∧
    (|r * (2 : ℚ) ^ ((k : Int) - 149) - q| = |x - q| → x ≠ r * (2 : ℚ) ^ ((k : Int) - 149) →
      r % 2 = 0) := by
  obtain ⟨-, hge, -, hnear⟩ := h
  obtain ⟨j, e, hj, rfl⟩ := hx
  have hu : (0 : ℚ) < 2 ^ ((k : Int) - 149) := by positivity
  obtain ⟨y, hy⟩ : ∃ y, y = q * 2 ^ (149 - (k : Int)) := ⟨_, rfl⟩
  have hq : q = y * 2 ^ ((k : Int) - 149) := by
    rw [hy, mul_assoc, ← zpow_add₀ (by norm_num), show 149 - (k : Int) + (k - 149) = 0 by ring,
      zpow_zero, mul_one]
  have hx : (2 : ℚ) ^ ((e : Int) - 149) = 2 ^ ((e : Int) - k) * 2 ^ ((k : Int) - 149) := by
    rw [← zpow_add₀ (by norm_num)]
    congr 1
    ring
  rw [← hy] at hge hnear
  generalize (2 : ℚ) ^ ((k : Int) - 149) = u at hu hq hx ⊢
  rw [hq, hx, ← mul_assoc, ← sub_mul, ← sub_mul, abs_mul, abs_mul, abs_of_pos hu,
    mul_le_mul_iff_left₀ hu, mul_left_inj' hu.ne', Ne, mul_left_inj' hu.ne']
  rcases le_or_gt k e with hke | hke
  · have hint : (j : ℚ) * 2 ^ ((e : Int) - k) = ((j * 2 ^ (e - k) : Int) : ℚ) := by
      push_cast
      rw [← Nat.cast_sub hke, zpow_natCast]
    rw [hint]
    exact hnear _
  · have small : (j : ℚ) * 2 ^ ((e : Int) - k) < 2 ^ 23 := by
      have hpow : (2 : ℚ) ^ ((e : Int) - k) ≤ 2 ^ (-1 : Int) :=
        zpow_le_zpow_right₀ (by norm_num) (by omega)
      have hpos : (0 : ℚ) < 2 ^ ((e : Int) - k) := by positivity
      rw [zpow_neg_one] at hpow
      nlinarith [le_abs_self (j : ℚ)]
    have far : |(r : ℚ) - y| < |(j : ℚ) * 2 ^ ((e : Int) - k) - y| := by
      refine (hnear (2 ^ 23)).1.trans_lt ?_
      push_cast
      rw [abs_of_nonpos (by linarith), abs_of_nonpos (by linarith)]
      linarith
    exact ⟨far.le, fun he => absurd he far.ne⟩

theorem le_of_representable (h : Rounded q k r) {x : ℚ} (hx : Representable x) (hq : q ≤ x) :
    r * (2 : ℚ) ^ ((k : Int) - 149) ≤ x :=
  le_of_nearer (h.nearest_representable hx).1 hq

/-! ### Its bits, and their order -/

theorem toNat_bits (h : Rounded q k r) :
    (BitVec.ofNat 32 (k * 2 ^ 23 + r)).toNat = k * 2 ^ 23 + r := by
  have hk := h.exponent_le
  have hr := h.significand_le
  rw [BitVec.toNat_ofNat, Nat.mod_eq_of_lt (by omega)]

theorem bits_le (h : Rounded q k r) {n : Nat} (hq : q ≤ 2 ^ ((n : Int) - 127)) :
    k * 2 ^ 23 + r ≤ n * 2 ^ 23 := by
  have hscaled : q * 2 ^ (149 - (k : Int)) ≤ 2 ^ ((n : Int) + 22 - k) := by
    rw [show (n : Int) + 22 - k = (n - 127) + (149 - k) by ring, zpow_add₀ (by norm_num)]
    exact mul_le_mul_of_nonneg_right hq (by positivity)
  have hexp : 23 ≤ (n : Int) + 22 - k :=
    (zpow_le_zpow_iff_right₀ (a := (2 : ℚ)) (by norm_num)).1
      (le_trans (by exact_mod_cast h.scaled_ge) hscaled)
  have hr := h.significand_le
  rcases Nat.lt_or_ge (k + 1) n with hk | hk
  · omega
  · have hr' : r ≤ 2 ^ 23 := by
      refine h.nearest.le (hscaled.trans ?_)
      rw [show (n : Int) + 22 - k = 23 by omega]
      norm_num
    omega

theorem le_exponent (h : Rounded q k r) {n : Nat} (hq : 2 ^ ((n : Int) - 127) ≤ q) : n ≤ k + 1 := by
  have hscaled : (2 : ℚ) ^ ((n : Int) + 22 - k) ≤ q * 2 ^ (149 - (k : Int)) := by
    rw [show (n : Int) + 22 - k = (n - 127) + (149 - k) by ring, zpow_add₀ (by norm_num)]
    exact mul_le_mul_of_nonneg_right hq (by positivity)
  have hexp : (n : Int) + 22 - k < 24 :=
    (zpow_lt_zpow_iff_right₀ (a := (2 : ℚ)) (by norm_num)).1
      (hscaled.trans_lt (by exact_mod_cast h.scaled_lt))
  omega

theorem le_bits (h : Rounded q k r) {n : Nat} (hq : 2 ^ ((n : Int) - 127) ≤ q) :
    n * 2 ^ 23 ≤ k * 2 ^ 23 + r := by
  have hk := h.le_exponent hq
  have hr := h.significand_ge
  omega

/-- The binary32 value after 1 is 1 + 2^-23. -/
theorem one_lt_bits (h : Rounded q k r) (hq : 1 + 1 / 2 ^ 23 ≤ q) :
    127 * 2 ^ 23 < k * 2 ^ 23 + r := by
  have hk : 127 ≤ k + 1 := h.le_exponent (by norm_num at hq ⊢; linarith)
  have hr := h.significand_ge
  rcases eq_or_ne k 126 with rfl | hne
  · have : 2 ^ 23 + 1 ≤ r := by
      refine h.nearest.ge ?_
      norm_num at hq ⊢
      linarith
    omega
  · omega

end Rounded

/-! ### `ratioBits` -/

theorem significandScale_bounds {num den : Nat} (hn : num < 2 ^ 16) (hd : den < 2 ^ 16) :
    0 ≤ significandScale num den ∧ significandScale num den ≤ 149 := by
  have log_lt {m : Nat} (hm : m < 2 ^ 16) : Nat.log2 m < 16 := by
    rcases Nat.eq_zero_or_pos m with rfl | hpos
    · decide
    · exact (Nat.log2_lt hpos.ne').2 hm
  have h1 := log_lt hn
  have h2 := log_lt hd
  unfold significandScale
  simp only
  split <;> omega

/-- `ratioBits` composes the bits of the value nearest to the ratio. -/
theorem ratioBits_rounded {num den : Nat} (hn0 : 0 < num) (hn : num < 2 ^ 16) (hd0 : 0 < den)
    (hd : den < 2 ^ 16) :
    ∃ k r, Rounded ((num : ℚ) / den) k r ∧ ratioBits num den = k * 2 ^ 23 + r := by
  obtain ⟨hs0, hs⟩ := significandScale_bounds hn hd
  obtain ⟨hlo, hhi⟩ := significandScale_spec num den hn0 hd0
  obtain ⟨hden, hratio⟩ := scaleRatio_spec num den (significandScale num den) hd0
  have hnear := roundRatio_nearestEven (scaleRatio num den (significandScale num den)).1 hden
  obtain ⟨k, hk⟩ : ∃ k : Nat, significandScale num den = 149 - (k : Int) :=
    ⟨(149 - significandScale num den).toNat, by omega⟩
  rw [hratio] at hnear
  refine ⟨k, _, ⟨by omega, hk ▸ hlo, hk ▸ hhi, hk ▸ hnear⟩, ?_⟩
  unfold ratioBits
  simp only [hk]
  omega

end Sys2Proof.Machine
end

section
/-! PROOF. Normalization (R211 to R214): `norm_div` as the correctly rounded quotient, and the range
of a normalized value. -/

namespace Sys2Proof.Machine

/-! ### The bits of a quotient -/

theorem natAbs_toInt_lt (n : I16) : n.toInt.natAbs < 2 ^ 16 := by
  have := BitVec.toInt_lt (x := n)
  have := BitVec.le_toInt n
  omega

theorem toInt_ne_zero {n : I16} (h : n ≠ 0#16) : n.toInt ≠ 0 := fun he =>
  h (BitVec.eq_of_toInt_eq he)

theorem natAbs_toInt_pos {n : I16} (h : n ≠ 0#16) : 0 < n.toInt.natAbs :=
  Int.natAbs_pos.2 (toInt_ne_zero h)

theorem ratioBits_natAbs_rounded {n d : I16} (hn : n ≠ 0#16) (hd : d ≠ 0#16) :
    ∃ k r, Rounded ((n.toInt.natAbs : ℚ) / d.toInt.natAbs) k r ∧
      ratioBits n.toInt.natAbs d.toInt.natAbs = k * 2 ^ 23 + r :=
  ratioBits_rounded (natAbs_toInt_pos hn) (natAbs_toInt_lt n) (natAbs_toInt_pos hd)
    (natAbs_toInt_lt d)

theorem normDiv_of_same_sign {n d : I16} (hn : n ≠ 0#16)
    (h : decide (n.toInt < 0) = decide (d.toInt < 0)) :
    normDiv n d = BitVec.ofNat 32 (ratioBits n.toInt.natAbs d.toInt.natAbs) := by
  simp [normDiv, toInt_ne_zero hn, h]

theorem normDiv_of_other_sign {n d : I16} (hn : n ≠ 0#16)
    (h : decide (n.toInt < 0) ≠ decide (d.toInt < 0)) :
    normDiv n d = BitVec.ofNat 32 (2 ^ 31 + ratioBits n.toInt.natAbs d.toInt.natAbs) := by
  simp [normDiv, toInt_ne_zero hn, h]

theorem quotient_of_same_sign {n d : Int} (h : decide (n < 0) = decide (d < 0)) :
    (n : ℚ) / d = (n.natAbs : ℚ) / d.natAbs := by
  rw [decide_eq_decide] at h
  rw [Nat.cast_natAbs, Nat.cast_natAbs]
  rcases lt_or_ge n 0 with hn | hn
  · rw [abs_of_neg hn, abs_of_neg (h.1 hn), Int.cast_neg, Int.cast_neg, neg_div_neg_eq]
  · rw [abs_of_nonneg hn, abs_of_nonneg (Int.not_lt.1 (mt h.2 (Int.not_lt.2 hn)))]

theorem quotient_of_other_sign {n d : Int} (h : decide (n < 0) ≠ decide (d < 0)) :
    (n : ℚ) / d = -((n.natAbs : ℚ) / d.natAbs) := by
  rw [Ne, decide_eq_decide] at h
  rw [Nat.cast_natAbs, Nat.cast_natAbs]
  rcases lt_or_ge n 0 with hn | hn
  · have hd : 0 ≤ d := by omega
    rw [abs_of_neg hn, abs_of_nonneg hd, Int.cast_neg, neg_div, neg_neg]
  · have hd : d < 0 := by omega
    rw [abs_of_nonneg hn, abs_of_neg hd, Int.cast_neg, div_neg, neg_neg]

/-! ### The nearest value (R214) -/

/-- The value of a positive rounded quotient, with its sign and exponent. -/
theorem Rounded.normValue_bits {q : ℚ} {k r : Nat} (h : Rounded q k r) :
    normNegative (BitVec.ofNat 32 (k * 2 ^ 23 + r)) = false ∧
    normExponent (BitVec.ofNat 32 (k * 2 ^ 23 + r)) ≠ 255 ∧
    normValue (BitVec.ofNat 32 (k * 2 ^ 23 + r)) = r * (2 : ℚ) ^ ((k : Int) - 149) :=
  Machine.normValue_bits k r h.exponent_le h.significand_ge h.significand_le

/-- Setting bit 31 negates the value and leaves the exponent (R214). -/
theorem normValue_setSign {b : Nat} (hb : b < 2 ^ 31) :
    normExponent (BitVec.ofNat 32 (2 ^ 31 + b)) = normExponent (BitVec.ofNat 32 b) ∧
    normValue (BitVec.ofNat 32 (2 ^ 31 + b)) = -normValue (BitVec.ofNat 32 b) := by
  have h1 : (BitVec.ofNat 32 (2 ^ 31 + b)).toNat = 2 ^ 31 + b := by
    rw [BitVec.toNat_ofNat, Nat.mod_eq_of_lt (by omega)]
  have h2 : (BitVec.ofNat 32 b).toNat = b := by
    rw [BitVec.toNat_ofNat, Nat.mod_eq_of_lt (by omega)]
  have hexp : normExponent (BitVec.ofNat 32 (2 ^ 31 + b)) = normExponent (BitVec.ofNat 32 b) := by
    rw [normExponent, normExponent, h1, h2]
    omega
  have hsig : normSignificand (BitVec.ofNat 32 (2 ^ 31 + b)) =
      normSignificand (BitVec.ofNat 32 b) := by
    rw [normSignificand, normSignificand, hexp, h1, h2]
    congr 1 <;> omega
  have neg : normNegative (BitVec.ofNat 32 (2 ^ 31 + b)) = true := by
    rw [normNegative, h1, decide_eq_true_eq]
    omega
  have pos : normNegative (BitVec.ofNat 32 b) = false := by
    rw [normNegative, h2, decide_eq_false_iff_not]
    omega
  refine ⟨hexp, ?_⟩
  rw [normValue, normValue, hexp, hsig, neg, pos]
  simp

theorem getLsbD_zero_of_even {b : Nat} (h : b % 2 = 0) : (BitVec.ofNat 32 b).getLsbD 0 = false := by
  rw [BitVec.getLsbD_ofNat, Nat.testBit_zero, h]
  rfl

/-- The bits of a rounded quotient are nearest to it among the finite values, ties to even. -/
theorem Rounded.bits_nearest {q : ℚ} {k r : Nat} (h : Rounded q k r) {x : ℚ}
    (hx : Representable x) :
    |normValue (BitVec.ofNat 32 (k * 2 ^ 23 + r)) - q| ≤ |x - q| ∧
    (|normValue (BitVec.ofNat 32 (k * 2 ^ 23 + r)) - q| = |x - q| →
      x ≠ normValue (BitVec.ofNat 32 (k * 2 ^ 23 + r)) → (k * 2 ^ 23 + r) % 2 = 0) := by
  obtain ⟨-, -, hv⟩ := h.normValue_bits
  obtain ⟨hle, htie⟩ := h.nearest_representable hx
  rw [hv]
  refine ⟨hle, fun he hne => ?_⟩
  have := htie he hne
  omega

/-- `norm_div` is the correctly rounded quotient, for both signs. -/
theorem normDiv_nearest {n d : I16} (hn : n ≠ 0#16) (hd : d ≠ 0#16) :
    normExponent (normDiv n d) ≠ 255 ∧
    ∀ x, Representable x →
      |normValue (normDiv n d) - (n.toInt : ℚ) / d.toInt| ≤ |x - (n.toInt : ℚ) / d.toInt| ∧
      (|normValue (normDiv n d) - (n.toInt : ℚ) / d.toInt| = |x - (n.toInt : ℚ) / d.toInt| →
        x ≠ normValue (normDiv n d) → (normDiv n d).getLsbD 0 = false) := by
  obtain ⟨k, r, hround, hbits⟩ := ratioBits_natAbs_rounded hn hd
  obtain ⟨-, hexp, -⟩ := hround.normValue_bits
  by_cases hsign : decide (n.toInt < 0) = decide (d.toInt < 0)
  · rw [normDiv_of_same_sign hn hsign, quotient_of_same_sign hsign, hbits]
    refine ⟨hexp, fun x hx => ?_⟩
    obtain ⟨hle, htie⟩ := hround.bits_nearest hx
    exact ⟨hle, fun he hne => getLsbD_zero_of_even (htie he hne)⟩
  · have hsmall : k * 2 ^ 23 + r < 2 ^ 31 := by
      have := hround.exponent_le
      have := hround.significand_le
      omega
    obtain ⟨hexp', hval⟩ := normValue_setSign hsmall
    rw [normDiv_of_other_sign hn hsign, quotient_of_other_sign hsign, hbits, hexp', hval]
    refine ⟨hexp, fun x hx => ?_⟩
    obtain ⟨hle, htie⟩ := hround.bits_nearest hx.neg
    have mirror (a b : ℚ) : |a - -b| = |-a - b| := by
      rw [sub_neg_eq_add, ← abs_neg, neg_add, ← sub_eq_add_neg]
    rw [mirror, mirror, neg_neg]
    exact ⟨hle, fun he hne => getLsbD_zero_of_even (by
      have := htie he fun hx' => hne (by rw [← hx', neg_neg])
      omega)⟩

/-! ### The quotient of a raw value and its calibration bound (R211) -/

/-- The bound of the calibration that a raw value is divided by (R211). -/
def boundFor (c : Calibration) (r : I16) : I16 := if 0 < r.toInt then c.max else c.min

theorem normalize_eq_normDiv (c : Calibration) {r : I16} (hr : r ≠ 0#16) :
    normalize c r = normDiv r (boundFor c r) := by
  have h0 := toInt_ne_zero hr
  unfold normalize boundFor
  split
  · rfl
  · rw [if_pos (by omega)]

theorem normalize_of_neg (c : Calibration) {r : I16} (hr : r.toInt < 0) :
    normalize c r = normDiv r c.min := by
  rw [normalize, if_neg (by omega), if_pos hr]

theorem two_pow_neg_fifteen_le_ratio {a b : Nat} (ha : 0 < a) (hb0 : 0 < b) (hb : b ≤ 2 ^ 15) :
    (2 : ℚ) ^ (((112 : Nat) : Int) - 127) ≤ (a : ℚ) / b := by
  have ha' : (1 : ℚ) ≤ a := by exact_mod_cast ha
  have hb' : (b : ℚ) ≤ 32768 := by exact_mod_cast hb
  rw [le_div_iff₀ (by exact_mod_cast hb0)]
  norm_num
  linarith

theorem ratio_le_two_pow_twelve {a b : Nat} (ha : a ≤ 2 ^ 12) (hb0 : 0 < b) :
    (a : ℚ) / b ≤ 2 ^ (((139 : Nat) : Int) - 127) := by
  have ha' : (a : ℚ) ≤ 4096 := by exact_mod_cast ha
  have hb' : (1 : ℚ) ≤ b := by exact_mod_cast hb0
  rw [div_le_iff₀ (by linarith)]
  norm_num
  linarith

theorem ratio_le_one {a b : Nat} (hab : a ≤ b) : (a : ℚ) / b ≤ 2 ^ (((127 : Nat) : Int) - 127) := by
  rw [show ((127 : Nat) : Int) - 127 = 0 from rfl, zpow_zero]
  exact div_le_one_of_le₀ (by exact_mod_cast hab) (Nat.cast_nonneg b)

/-- A ratio above 1 with a bound of 16 bits does not round to 1. -/
theorem one_add_le_ratio {a b : Nat} (hab : b < a) (hb0 : 0 < b) (hb : b ≤ 2 ^ 15) :
    1 + 1 / 2 ^ 23 ≤ (a : ℚ) / b := by
  have ha' : (b : ℚ) + 1 ≤ a := by exact_mod_cast hab
  have hb' : (b : ℚ) ≤ 32768 := by exact_mod_cast hb
  rw [le_div_iff₀ (by exact_mod_cast hb0)]
  norm_num
  linarith

section

variable {c : Calibration} {r : I16}

/-- The bound has the sign of the raw value, so the quotient is positive. -/
theorem boundFor_sign (hc : c.wellFormed = true) (hr : r ≠ 0#16) :
    decide (r.toInt < 0) = decide ((boundFor c r).toInt < 0) := by
  obtain ⟨hmin, hmax⟩ := (Calibration.wellFormed_iff c).1 hc
  have h0 := toInt_ne_zero hr
  rw [decide_eq_decide, boundFor]
  split <;> omega

theorem boundFor_ne_zero (hc : c.wellFormed = true) (r : I16) : boundFor c r ≠ 0#16 := by
  obtain ⟨hmin, hmax⟩ := (Calibration.wellFormed_iff c).1 hc
  intro h
  have h0 : (boundFor c r).toInt = 0 := by rw [h]; rfl
  rw [boundFor] at h0
  split at h0 <;> omega

/-- The raw value lies within the calibration exactly when its magnitude is at most its bound's. -/
theorem natAbs_le_boundFor_iff (hc : c.wellFormed = true) (r : I16) :
    r.toInt.natAbs ≤ (boundFor c r).toInt.natAbs ↔
      c.min.toInt ≤ r.toInt ∧ r.toInt ≤ c.max.toInt := by
  obtain ⟨hmin, hmax⟩ := (Calibration.wellFormed_iff c).1 hc
  rw [boundFor]
  split <;> omega

theorem natAbs_boundFor_le (c : Calibration) (r : I16) :
    (boundFor c r).toInt.natAbs ≤ 2 ^ 15 := by
  have := BitVec.toInt_lt (x := boundFor c r)
  have := BitVec.le_toInt (boundFor c r)
  omega

theorem lt_natAbs_boundFor (hmin : c.min.toInt < -100) (hmax : 100 < c.max.toInt) (r : I16) :
    100 < (boundFor c r).toInt.natAbs := by
  rw [boundFor]
  split <;> omega

/-- A normalized value of a non-zero raw value is a rounded quotient of magnitudes. -/
theorem normalize_rounded (hc : c.wellFormed = true) (hr : r ≠ 0#16) :
    ∃ k m, Rounded ((r.toInt.natAbs : ℚ) / (boundFor c r).toInt.natAbs) k m ∧
      normalize c r = BitVec.ofNat 32 (k * 2 ^ 23 + m) := by
  obtain ⟨k, m, hround, hbits⟩ := ratioBits_natAbs_rounded hr (boundFor_ne_zero hc r)
  refine ⟨k, m, hround, ?_⟩
  rw [normalize_eq_normDiv c hr, normDiv_of_same_sign hr (boundFor_sign hc hr), hbits]

/-! ### The range of a normalized value (R212, R213, R214) -/

theorem normNegative_normalize (hc : c.wellFormed = true) (r : I16) :
    normNegative (normalize c r) = false := by
  by_cases hr : r = 0#16
  · rw [hr, normalize_zero]
    rfl
  · obtain ⟨k, m, hround, e⟩ := normalize_rounded hc hr
    rw [e]
    exact hround.normValue_bits.1

/-- The least magnitude over the greatest bound is 2^-15. -/
theorem le_normalize_toNat (hc : c.wellFormed = true) (hr : r ≠ 0#16) :
    0x38000000 ≤ (normalize c r).toNat := by
  obtain ⟨k, m, hround, e⟩ := normalize_rounded hc hr
  rw [e, hround.toNat_bits]
  exact hround.le_bits (n := 112) (two_pow_neg_fifteen_le_ratio (natAbs_toInt_pos hr)
    (natAbs_toInt_pos (boundFor_ne_zero hc r)) (natAbs_boundFor_le c r))

/-- The greatest magnitude the decoder gives over the least bound is 2^12. -/
theorem normalize_toNat_le (hc : c.wellFormed = true) (hr : r ≠ 0#16) (ha : AxisOk r) :
    (normalize c r).toNat ≤ 0x45800000 := by
  obtain ⟨k, m, hround, e⟩ := normalize_rounded hc hr
  rw [e, hround.toNat_bits]
  obtain ⟨hlo, hhi⟩ := ha
  exact hround.bits_le (n := 139) (ratio_le_two_pow_twelve (by omega)
    (natAbs_toInt_pos (boundFor_ne_zero hc r)))

theorem normalize_normOk (hc : c.wellFormed = true) (ha : AxisOk r) : NormOk (normalize c r) := by
  by_cases hr : r = 0#16
  · rw [hr, normalize_zero]
    exact .inl rfl
  · exact .inr ⟨le_normalize_toNat hc hr, normalize_toNat_le hc hr ha⟩

/-- Within its bound the quotient is at most 1; outside it is too far above 1 to round to it. -/
theorem normalize_le_one_iff (hc : c.wellFormed = true) (hr : r ≠ 0#16) :
    (normalize c r).toNat ≤ 0x3F800000 ↔ r.toInt.natAbs ≤ (boundFor c r).toInt.natAbs := by
  obtain ⟨k, m, hround, e⟩ := normalize_rounded hc hr
  rw [e, hround.toNat_bits]
  constructor
  · intro hle
    by_contra hgt
    have hone := hround.one_lt_bits (one_add_le_ratio (Nat.lt_of_not_le hgt)
      (natAbs_toInt_pos (boundFor_ne_zero hc r)) (natAbs_boundFor_le c r))
    omega
  · intro hle
    exact hround.bits_le (n := 127) (ratio_le_one hle)

end

/-! ### The statements -/

/-- Settles O55: the sign, and the order of the bits around 1 and 4096; raw 0 gives the bits 0. -/
theorem normalizedRange : Obligations.NormalizedRange := by
  unfold Obligations.NormalizedRange
  intro c r hc
  refine ⟨normNegative_normalize hc r, ?_, fun ha => ?_, ?_⟩
  · rw [← natAbs_le_boundFor_iff hc r]
    by_cases hr : r = 0#16
    · rw [hr, normalize_zero]
      exact iff_of_true (by decide) (Nat.zero_le _)
    · exact normalize_le_one_iff hc hr
  · rcases normalize_normOk hc ha with h | ⟨-, h⟩
    · rw [h]
      decide
    · exact h
  · have greatest : normDiv (BitVec.ofInt 16 (-4096)) (BitVec.ofInt 16 (-1)) = 0x45800000#32 := by
      decide
    exact (normalize_of_neg _ (by decide)).trans greatest

/-- Settles O56: the least value of a non-zero raw value is 2^-15. -/
theorem normZeroOnlyForZero : Obligations.NormZeroOnlyForZero := by
  unfold Obligations.NormZeroOnlyForZero
  intro c r hc
  constructor
  · intro h
    by_contra hr
    have hge := le_normalize_toNat hc hr
    rw [h] at hge
    exact absurd hge (by decide)
  · rintro rfl
    exact normalize_zero c

/-- Settles O57: a finite value is representable, and the quotient is nearest among those. -/
theorem quotientIsNearest : Obligations.QuotientIsNearest := by
  unfold Obligations.QuotientIsNearest
  refine ⟨fun c r hc ha => normalize_normOk hc ha, fun n d hn hd => ?_⟩
  obtain ⟨hexp, hnear⟩ := normDiv_nearest hn hd
  exact ⟨hexp, fun w _ => hnear _ (normValue_representable w)⟩

/-! ### The snapshot (R214, R215) -/

theorem live_submitOk {s t : State} (hs : s.Inv) (ht : t.submit = live s) : SubmitOk t := by
  obtain ⟨hw, -, -, -, ⟨hx, hy, hz, hu, hv, hw'⟩, -⟩ := hs
  obtain ⟨-, -, -, -, hcal⟩ := (Config.wellFormed_iff s.cfg).mp hw
  have hok (a : Axis) (ha : AxisOk (s.raw.get a)) : NormOk (getNorm a s) :=
    normalize_normOk ((Calibration.wellFormed_iff _).2 ((calWellFormed_iff _).1 hcal a)) ha
  rw [SubmitOk, ht]
  exact ⟨hok .x hx, hok .y hy, hok .z hz, hok .u hu, hok .v hv, hok .w hw'⟩

theorem exec_submitOk {i : Instr} {s t : State} (hinv : s.Inv) (hs : SubmitOk s)
    (h : exec i s = .next t) : SubmitOk t := by
  by_cases hsub : t.submit = s.submit
  · rw [SubmitOk, hsub]
    exact hs
  · obtain ⟨-, -, hlatch⟩ := snapshotIsHeldInFlight i s t h
    exact live_submitOk hinv (hlatch hsub).1

/-- Settles O51: `submit` changes only to a snapshot of normalizations of raw values in range. -/
theorem stepKeepsSubmitNormalized : Obligations.StepKeepsSubmitNormalized := by
  unfold Obligations.StepKeepsSubmitNormalized
  intro s t hinv hs h
  refine (step_of_exec (P := fun u => u.Inv ∧ SubmitOk u) ?_ (fun _ _ _ hu => hu) ⟨hinv, hs⟩ h).2
  rintro i u v ⟨hu, hsub⟩ hv
  exact ⟨exec_inv hu hv, exec_submitOk hu hsub hv⟩

end Sys2Proof.Machine
end

section
/-! PROOF. The physical mapping (R217 to R219): `phys_map` as the correctly rounded product with
800, truncated, and where it is specified. -/

namespace Sys2Proof.Machine

/-! ### The truncation -/

/-- For a finite value that is not negative `phys_map` is the magnitude, where that is an `int16`.
-/
theorem physMap_eq_some_iff {v : Norm} (hneg : normNegative v = false) (hexp : normExponent v ≠ 255)
    (p : I16) : physMap v = some p ↔ p.toInt = physMagnitude v := by
  have hlo := BitVec.le_toInt p
  have hhi := BitVec.toInt_lt (x := p)
  simp only [physMap, hneg, Bool.false_eq_true, if_false, if_neg hexp]
  split
  · next h =>
    rw [Option.some.injEq, ← BitVec.toInt_inj,
      BitVec.toInt_ofInt_eq_self (by decide) (by omega) (by omega), eq_comm]
  · next h =>
    refine iff_of_false nofun fun he => h ?_
    omega

/-- The quotient of a scaled pair is the integer part of the scaled ratio. -/
theorem scaleRatio_floor (m : Nat) (e : Int) :
    (((scaleRatio m 1 e).1 / (scaleRatio m 1 e).2 : Nat) : Int) = ⌊(m : ℚ) * 2 ^ e⌋ := by
  obtain ⟨-, h⟩ := scaleRatio_spec m 1 e Nat.one_pos
  rw [Nat.cast_one, div_one] at h
  rw [← h, Rat.floor_natCast_div_natCast, Int.natCast_ediv]

/-! ### The rounded product -/

/-- A normal positive value from 2^-15 to 2^12: its sign, exponent and significand. -/
theorem norm_fields {v : Norm} (hlo : 0x38000000 ≤ v.toNat) (hhi : v.toNat ≤ 0x45800000) :
    normNegative v = false ∧ 112 ≤ normExponent v ∧ normExponent v ≤ 139 ∧
    2 ^ 23 ≤ normSignificand v := by
  have hexp : normExponent v = v.toNat / 2 ^ 23 := by
    rw [normExponent]
    omega
  refine ⟨?_, by omega, by omega, ?_⟩
  · rw [normNegative, decide_eq_false_iff_not]
    omega
  · rw [normSignificand, if_neg (by omega)]
    omega

/-- The exact product dropped to 24 significant bits lies in the range of a significand. -/
theorem dropped_product_bounds {m : Nat} (hm : 2 ^ 23 ≤ m) :
    (2 : ℚ) ^ 23 ≤ (m : ℚ) / (2 ^ (Nat.log2 m - 23) : Nat) ∧
    (m : ℚ) / (2 ^ (Nat.log2 m - 23) : Nat) < 2 ^ 24 := by
  have hlog : 23 ≤ Nat.log2 m := (Nat.le_log2 (by omega)).2 hm
  obtain ⟨d, hd⟩ := Nat.exists_eq_add_of_le hlog
  have hlo : 2 ^ 23 * 2 ^ d ≤ m := by
    rw [← pow_add, ← hd]
    exact Nat.log2_self_le (by omega)
  have hhi : m < 2 ^ 24 * 2 ^ d := by
    rw [← pow_add, show 24 + d = Nat.log2 m + 1 by omega]
    exact Nat.lt_log2_self
  rw [hd, Nat.add_sub_cancel_left, le_div_iff₀ (by positivity), div_lt_iff₀ (by positivity)]
  exact ⟨by exact_mod_cast hlo, by exact_mod_cast hhi⟩

/-- `phys_map` of a normal value from 2^-15 to 2^12 is the integer part of the product with 800
rounded to binary32. -/
theorem physMap_rounded {v : Norm} (hlo : 0x38000000 ≤ v.toNat) (hhi : v.toNat ≤ 0x45800000) :
    ∃ k r, Rounded (800 * normValue v) k r ∧
      ∀ p : I16, physMap v = some p ↔ p.toInt = ⌊(r : ℚ) * 2 ^ ((k : Int) - 149)⌋ := by
  obtain ⟨hneg, hexp1, hexp2, hsig⟩ := norm_fields hlo hhi
  have hsig' := normSignificand_lt v
  obtain ⟨m, hm⟩ : ∃ m, m = normSignificand v * physRange := ⟨_, rfl⟩
  have hm800 : m = normSignificand v * 800 := hm
  obtain ⟨d, hd⟩ : ∃ d, d = Nat.log2 m - 23 := ⟨_, rfl⟩
  obtain ⟨k, hk⟩ : ∃ k, k + 1 = normExponent v + d := ⟨normExponent v + d - 1, by omega⟩
  have hmax : max 1 (normExponent v) = normExponent v := max_eq_right (by omega)
  have hdle : d ≤ 10 := by
    have : Nat.log2 m < 34 := (Nat.log2_lt (by omega)).2 (by omega)
    omega
  have hvalue : 800 * normValue v * 2 ^ (149 - (k : Int)) = (m : ℚ) / (2 ^ d : Nat) := by
    have hscale : (2 : ℚ) ^ ((normExponent v : Int) - 150) * 2 ^ (149 - (k : Int)) = (2 ^ d)⁻¹ := by
      rw [← zpow_add₀ (by norm_num), ← zpow_natCast, ← zpow_neg]
      congr 1
      omega
    rw [normValue, hneg, hmax, hm]
    simp only [Bool.false_eq_true, if_false, one_mul]
    rw [← mul_assoc, mul_assoc, hscale]
    push_cast
    ring
  obtain ⟨hge, hlt⟩ := dropped_product_bounds (m := m) (by omega)
  rw [← hd, ← hvalue] at hge hlt
  have hnear : NearestEven (roundRatio m (2 ^ d)) (800 * normValue v * 2 ^ (149 - (k : Int))) := by
    rw [hvalue]
    exact roundRatio_nearestEven m (by positivity)
  refine ⟨k, roundRatio m (2 ^ d), ⟨by omega, hge, hlt, hnear⟩, fun p => ?_⟩
  have hmagnitude : (physMagnitude v : Int) =
      ⌊(roundRatio m (2 ^ d) : ℚ) * 2 ^ ((k : Int) - 149)⌋ := by
    rw [← scaleRatio_floor, physMagnitude, ← hm, ← hd, hmax]
    simp only [show (normExponent v : Int) + (d : Int) - 150 = (k : Int) - 149 by omega]
  rw [physMap_eq_some_iff hneg (by omega), hmagnitude]

theorem normValue_zero : normValue 0#32 = 0 := by
  simp [normValue, normSignificand, normExponent]

theorem physMap_zero : physMap 0#32 = some 0#16 := by decide

/-! ### The statements -/

/-- Settles O58: +0.0 is its own product; a normal value's product is rounded and truncated. -/
theorem physicalMapTruncatesTheProduct : Obligations.PhysicalMapTruncatesTheProduct := by
  unfold Obligations.PhysicalMapTruncatesTheProduct
  rintro v (rfl | ⟨hlo, hhi⟩)
  · refine ⟨0#32, by decide, by decide, fun w _ => ?_, fun p => ?_⟩
    · rw [normValue_zero, mul_zero, sub_zero, sub_zero, abs_zero]
      exact ⟨abs_nonneg _, fun _ _ => rfl⟩
    · rw [normValue_zero, Int.floor_zero, physMap_zero, Option.some.injEq, ← BitVec.toInt_inj,
        eq_comm]
      rfl
  · obtain ⟨k, r, hround, hmap⟩ := physMap_rounded hlo hhi
    obtain ⟨hneg, hexp, hval⟩ := hround.normValue_bits
    refine ⟨BitVec.ofNat 32 (k * 2 ^ 23 + r), hexp, hneg, fun w _ => ?_, fun p => ?_⟩
    · obtain ⟨hle, htie⟩ := hround.bits_nearest (normValue_representable w)
      exact ⟨hle, fun he hne => getLsbD_zero_of_even (htie he hne)⟩
    · rw [hmap, hval]

theorem representable_of_div_sixteen (n : Nat) (hn : n < 2 ^ 24) : Representable (n / 16 : ℚ) := by
  refine ⟨n, 145, ?_, ?_⟩
  · rw [Int.cast_natCast, Nat.abs_cast]
    exact_mod_cast hn
  · norm_num
    ring

/-- Above calibration bounds of 100 a normalized value is at most 4096/101 rounded, so at most
649/16: its product with 800 rounds to at most 32450. -/
theorem physMap_isSome {c : Calibration} {r : I16} (hc : c.wellFormed = true) (ha : AxisOk r)
    (hr : r ≠ 0#16) (hmin : c.min.toInt < -100) (hmax : 100 < c.max.toInt) :
    ∃ p, physMap (normalize c r) = some p := by
  obtain ⟨k, m, hquot, e⟩ := normalize_rounded hc hr
  obtain ⟨k', m', hprod, hmap⟩ :=
    physMap_rounded (le_normalize_toNat hc hr) (normalize_toNat_le hc hr ha)
  have hvalue : normValue (normalize c r) ≤ 649 / 16 := by
    rw [e, hquot.normValue_bits.2.2]
    refine hquot.le_of_representable (representable_of_div_sixteen 649 (by norm_num)) ?_
    obtain ⟨hlo, hhi⟩ := ha
    have hnum : (r.toInt.natAbs : ℚ) ≤ 4096 := by
      exact_mod_cast (show r.toInt.natAbs ≤ 4096 by omega)
    have hden : (101 : ℚ) ≤ (boundFor c r).toInt.natAbs := by
      exact_mod_cast lt_natAbs_boundFor hmin hmax r
    rw [div_le_iff₀ (by linarith)]
    linarith
  have hbound : (m' : ℚ) * 2 ^ ((k' : Int) - 149) ≤ 32450 := by
    have hrep : Representable 32450 := by
      have := representable_of_div_sixteen (32450 * 16) (by norm_num)
      norm_num at this
      exact this
    exact hprod.le_of_representable hrep (by linarith)
  have hlow : 0 ≤ ⌊(m' : ℚ) * 2 ^ ((k' : Int) - 149)⌋ := Int.floor_nonneg.2 (by positivity)
  have hhigh : ⌊(m' : ℚ) * 2 ^ ((k' : Int) - 149)⌋ ≤ 32450 := by
    exact_mod_cast (Int.floor_le _).trans hbound
  refine ⟨BitVec.ofInt 16 ⌊(m' : ℚ) * 2 ^ ((k' : Int) - 149)⌋, (hmap _).2 ?_⟩
  exact BitVec.toInt_ofInt_eq_self (by decide) (by omega) (by omega)

/-- Settles O60: a magnitude is not negative, and above bounds of 100 it is an `int16`. -/
theorem physicalValueIsInRange : Obligations.PhysicalValueIsInRange := by
  unfold Obligations.PhysicalValueIsInRange
  intro c r hc ha
  by_cases hr : r = 0#16
  · rw [hr, normalize_zero, normZero, physMap_zero]
    refine ⟨?_, fun _ _ => ⟨_, rfl⟩⟩
    rintro p ⟨⟩
    decide
  · refine ⟨fun p hp => ?_, physMap_isSome hc ha hr⟩
    obtain ⟨hneg, -, hexp, -⟩ :=
      norm_fields (le_normalize_toNat hc hr) (normalize_toNat_le hc hr ha)
    rw [(physMap_eq_some_iff hneg (by omega) p).1 hp]
    exact Int.natCast_nonneg _

/-- A value over itself is 1, exactly. -/
theorem normDiv_self {d : I16} (hd : d ≠ 0#16) : normDiv d d = 0x3F800000#32 := by
  obtain ⟨k, r, hround, hbits⟩ := ratioBits_natAbs_rounded hd hd
  rw [div_self (by exact_mod_cast (natAbs_toInt_pos hd).ne')] at hround
  have hle := hround.bits_le (n := 127) (by norm_num)
  have hge := hround.le_bits (n := 127) (by norm_num)
  rw [normDiv_of_same_sign hd rfl, hbits, le_antisymm hle hge]
  rfl

theorem normValue_half : normValue 0x3F000000#32 = 1 / 2 := by
  norm_num [normValue, normNegative, normSignificand, normExponent]

/-- Settles O59: a value over itself is 1, which maps to 800; the other clauses are closed. -/
theorem abstractNumericsProperties : Obligations.AbstractNumericsProperties := by
  unfold Obligations.AbstractNumericsProperties
  have half_of_max : normalize ⟨BitVec.ofInt 16 (-2000), BitVec.ofInt 16 3000⟩ 1500#16 =
      0x3F000000#32 := by decide
  have half_of_min : normalize ⟨BitVec.ofInt 16 (-2000), BitVec.ofInt 16 3000⟩
      (BitVec.ofInt 16 (-1000)) = 0x3F000000#32 := by decide
  have one_maps_to_800 : physMap 0x3F800000#32 = some 800#16 := by decide
  refine ⟨physMap_zero, fun d hd => ?_, ?_, ?_, ?_⟩
  · rw [normDiv_self hd, one_maps_to_800]
  · rw [half_of_max, normValue_half]
  · rw [half_of_min, normValue_half]
  · rw [normalize_zero, normZero, normValue_zero]

/-- Settles O54: the rows are closed, so the numerics run on each. -/
theorem workedNormalizations : Obligations.WorkedNormalizations := by
  unfold Obligations.WorkedNormalizations
  decide

end Sys2Proof.Machine
end
